-- ==== Sys2Proof/Word.lean ====
section
/-! DEFINITION. The word of the machine (R5, R6): every register word and every memory word has 64 bits and is
unsigned; a character is a byte (R116); the comparison flag is one bit (R17). -/

namespace Sys2Proof

/-- A 64-bit unsigned word, "a 64-bit unsigned storage unit; the addressable unit of memory" (R6, R12). -/
abbrev Word := BitVec 64

/-- One character of the input or output stream, 0 to 255 (R116). -/
abbrev Byte := BitVec 8

/-- The one-bit comparison flag, value 0 or 1 (R17). -/
abbrev Flag := BitVec 1

/-- `MAX` = 2^64 - 1 (R6). -/
def Word.max : Word := BitVec.allOnes 64

end Sys2Proof
end

