-- ==== Sys2Proof/Config.lean ====
section
/-! DEFINITION. The parameters of the machine (R5) as data: what an implementation fixes and "the model takes ... as an
argument" (93_implementation_defined.md), the closed sets the parameters range over, and the one free value. Their
defaults are `Params.default` and `Toolchain.default` in Sys2Proof/Decode.lean. -/

namespace Sys2Proof

/-- The 33 names of the closed instruction set (R51): the domain of the parameter OPCODE. -/
inductive OpName where
  | loadImmediate
  | loadDirect
  | loadIndirect
  | loadIndexed
  | loadIndexImmediate
  | moveAccToIndex
  | store
  | addImm
  | addMem
  | subImm
  | subMem
  | incAcc
  | incIndex
  | decAcc
  | decIndex
  | compareMem
  | compareImm
  | compareIndirect
  | jump
  | jumpIfEqual
  | jumpIfNotEqual
  | andImm
  | andMem
  | xorImm
  | xorMem
  | orImm
  | orMem
  | shiftLeft
  | shiftRight
  | charIn
  | charOut
  | halt
  | inspect
deriving DecidableEq, Repr

/-- What an instruction does with its operand word (R50, the column "operand use" of R51). -/
inductive OperandUse where
  /-- the value itself (R38) -/
  | imm
  /-- a direct address (R39) -/
  | addr
  /-- the address of a pointer (R40) -/
  | ptr
  /-- the base of an indexed address (R41) -/
  | base
  /-- a jump target (R101) -/
  | target
  /-- a shift amount (R114, R115) -/
  | shamt
  /-- fetched and not used (R57) -/
  | ignored
deriving DecidableEq, Repr

/-- The parameter SHIFT_OVERSIZE (R5, D8, I1): what a shift by 64 or more leaves in `ACC`. -/
inductive ShiftOversize where
  /-- the result is 0: the spec's default -/
  | zero
  /-- the result is any value (I1's way to model the original software) -/
  | anyValue
deriving DecidableEq, Repr

/-- The parameter EOF_POLICY (R5, D10, I9): what char-in does while the host supplies no character. -/
inductive EofPolicy where
  /-- no step is taken: the spec's default -/
  | hold
  /-- any value is loaded into `ACC` and the run goes on (I9's alternative) -/
  | anyValue
deriving DecidableEq, Repr

/-- What a load does with two labels of one name (R63, D24, I2). -/
inductive DuplicateLabels where
  /-- the lowest address wins: the spec's default -/
  | lowestAddress
  /-- the load is refused (I2's alternative) -/
  | refuse
deriving DecidableEq, Repr

/-- A value of the parameter OPCODE (R5, R51, R52): one opcode word per name. A record and not a function, so that a
state that carries it is plain data. -/
structure OpcodeMap where
  loadImmediate : Word
  loadDirect : Word
  loadIndirect : Word
  loadIndexed : Word
  loadIndexImmediate : Word
  moveAccToIndex : Word
  store : Word
  addImm : Word
  addMem : Word
  subImm : Word
  subMem : Word
  incAcc : Word
  incIndex : Word
  decAcc : Word
  decIndex : Word
  compareMem : Word
  compareImm : Word
  compareIndirect : Word
  jump : Word
  jumpIfEqual : Word
  jumpIfNotEqual : Word
  andImm : Word
  andMem : Word
  xorImm : Word
  xorMem : Word
  orImm : Word
  orMem : Word
  shiftLeft : Word
  shiftRight : Word
  charIn : Word
  charOut : Word
  halt : Word
  inspect : Word
deriving DecidableEq, Repr

/-- The parameters of the core (R5): a machine is one choice of them, which no step changes (log entry 24). -/
structure Params where
  /-- `N`, the number of memory words; 2 <= N <= 2^64 (R5, R27, D2) -/
  memWords : Nat
  /-- OPCODE, an injective map from the names to opcode words (R51, R52, D1) -/
  opcode : OpcodeMap
  /-- ENTRY, the value of `PC` at reset (R143, D4) -/
  entry : Word
  /-- SHIFT_OVERSIZE (R114, R115, D8) -/
  shiftOversize : ShiftOversize
  /-- EOF_POLICY (R116, R117, D10) -/
  eofPolicy : EofPolicy
  /-- the value of `ACC` at reset, which I4 allows to be "a `parameter`" (R26, D3) -/
  resetAcc : Word
  /-- the value of `IX` at reset, likewise -/
  resetIx : Word
  /-- the value of `FLAG` at reset, likewise -/
  resetFlag : Flag
deriving DecidableEq, Repr

/-- The parameters of the load-time toolchain (R5, R62 to R64): no step of the machine depends on them. -/
structure Toolchain where
  /-- BIN_PREFIX (R5, D21) -/
  bin : Char
  /-- HEX_PREFIX (R5, D21) -/
  hex : Char
  /-- OCT_PREFIX (R5, D21) -/
  oct : Char
  /-- the base of a bare number, "`parameter`. Decimal is assumed" (R64, D20, I20) -/
  bareBase : Nat
  /-- what two labels of one name do, a "`parameter`" (R63, D24, I2) -/
  duplicates : DuplicateLabels
deriving DecidableEq, Repr

/-- The free values: the `n`-th value drawn from the "unconstrained input" of 93_implementation_defined.md.
No proof can see which word it is; it is drawn only under the policies `anyValue` (log entries 2, 3 and 9). -/
opaque Config.freeWord : Nat → Word

end Sys2Proof
end

