-- ==== Sys2Proof/Syntax.lean ====
section
/-! DEFINITION. The instructions (R51): one constructor per row of the opcode table, in the table's order. Every
instruction is a pair of words (R48), so every constructor carries its operand word, also where the instruction
ignores it (R57): "an operand is always present even for opcodes that ignore it". -/

namespace Sys2Proof

inductive Instr where
  /-- load-immediate (R81); the operand word is the immediate value -/
  | loadImmediate (opd : Word)
  /-- load-direct (R82); the operand word is a direct address -/
  | loadDirect (opd : Word)
  /-- load-indirect (R83); the operand word is the address of a pointer -/
  | loadIndirect (opd : Word)
  /-- load-indexed (R84); the operand word is the base of an indexed address -/
  | loadIndexed (opd : Word)
  /-- load-index-immediate (R85); the operand word is the immediate value -/
  | loadIndexImmediate (opd : Word)
  /-- move-acc-to-index (R86); the operand word is ignored -/
  | moveAccToIndex (opd : Word)
  /-- store (R87); the operand word is a direct address -/
  | store (opd : Word)
  /-- add-imm (R89); the operand word is the immediate value -/
  | addImm (opd : Word)
  /-- add-mem (R90); the operand word is a direct address -/
  | addMem (opd : Word)
  /-- sub-imm (R91); the operand word is the immediate value -/
  | subImm (opd : Word)
  /-- sub-mem (R92); the operand word is a direct address -/
  | subMem (opd : Word)
  /-- inc-acc (R93); the operand word is ignored -/
  | incAcc (opd : Word)
  /-- inc-index (R94); the operand word is ignored -/
  | incIndex (opd : Word)
  /-- dec-acc (R95); the operand word is ignored -/
  | decAcc (opd : Word)
  /-- dec-index (R96); the operand word is ignored -/
  | decIndex (opd : Word)
  /-- compare-mem (R98); the operand word is a direct address -/
  | compareMem (opd : Word)
  /-- compare-imm (R99); the operand word is the immediate value -/
  | compareImm (opd : Word)
  /-- compare-indirect (R100); the operand word is the address of a pointer -/
  | compareIndirect (opd : Word)
  /-- jump (R102); the operand word is the jump target -/
  | jump (opd : Word)
  /-- jump-if-equal (R103); the operand word is the jump target -/
  | jumpIfEqual (opd : Word)
  /-- jump-if-not-equal (R104); the operand word is the jump target -/
  | jumpIfNotEqual (opd : Word)
  /-- and-imm (R108); the operand word is the immediate value -/
  | andImm (opd : Word)
  /-- and-mem (R109); the operand word is a direct address -/
  | andMem (opd : Word)
  /-- xor-imm (R110); the operand word is the immediate value -/
  | xorImm (opd : Word)
  /-- xor-mem (R111); the operand word is a direct address -/
  | xorMem (opd : Word)
  /-- or-imm (R112); the operand word is the immediate value -/
  | orImm (opd : Word)
  /-- or-mem (R113); the operand word is a direct address -/
  | orMem (opd : Word)
  /-- shift-left (R114); the operand word is the shift amount -/
  | shiftLeft (opd : Word)
  /-- shift-right (R115); the operand word is the shift amount -/
  | shiftRight (opd : Word)
  /-- char-in (R117); the operand word is ignored -/
  | charIn (opd : Word)
  /-- char-out (R119); the operand word is ignored -/
  | charOut (opd : Word)
  /-- halt (R120); the operand word is ignored -/
  | halt (opd : Word)
  /-- inspect (R121); the operand word is ignored -/
  | inspect (opd : Word)
deriving DecidableEq, Repr

end Sys2Proof
end

