-- ==== Sys2Proof/Decode.lean ====
section
/-! DEFINITION. The decoder and the encoder (R48 to R55, R74), both from one table: the parameter OPCODE, which
`decodeWith` and `encodeWith` take as an argument (R52). `OpName.opcode` is the table of the spec (R51, D1), the
parameter's default; the defaults of the other parameters stand beside it. -/

namespace Sys2Proof

/-- The 33 names in the order of R51. -/
def OpName.all : List OpName :=
  [.loadImmediate, .loadDirect, .loadIndirect, .loadIndexed, .loadIndexImmediate, .moveAccToIndex, .store, .addImm,
   .addMem, .subImm, .subMem, .incAcc, .incIndex, .decAcc, .decIndex, .compareMem,
   .compareImm, .compareIndirect, .jump, .jumpIfEqual, .jumpIfNotEqual, .andImm, .andMem, .xorImm,
   .xorMem, .orImm, .orMem, .shiftLeft, .shiftRight, .charIn, .charOut, .halt,
   .inspect]

/-- The default of the parameter OPCODE: the names numbered 1 to 33 in the source's order (R51, D1). -/
def OpName.opcode : OpName → Word
  | .loadImmediate => 0x01
  | .loadDirect => 0x02
  | .loadIndirect => 0x03
  | .loadIndexed => 0x04
  | .loadIndexImmediate => 0x05
  | .moveAccToIndex => 0x06
  | .store => 0x07
  | .addImm => 0x08
  | .addMem => 0x09
  | .subImm => 0x0A
  | .subMem => 0x0B
  | .incAcc => 0x0C
  | .incIndex => 0x0D
  | .decAcc => 0x0E
  | .decIndex => 0x0F
  | .compareMem => 0x10
  | .compareImm => 0x11
  | .compareIndirect => 0x12
  | .jump => 0x13
  | .jumpIfEqual => 0x14
  | .jumpIfNotEqual => 0x15
  | .andImm => 0x16
  | .andMem => 0x17
  | .xorImm => 0x18
  | .xorMem => 0x19
  | .orImm => 0x1A
  | .orMem => 0x1B
  | .shiftLeft => 0x1C
  | .shiftRight => 0x1D
  | .charIn => 0x1E
  | .charOut => 0x1F
  | .halt => 0x20
  | .inspect => 0x21

/-- The opcode word a map gives a name (R51, R52). -/
def OpcodeMap.of (m : OpcodeMap) : OpName → Word
  | .loadImmediate => m.loadImmediate
  | .loadDirect => m.loadDirect
  | .loadIndirect => m.loadIndirect
  | .loadIndexed => m.loadIndexed
  | .loadIndexImmediate => m.loadIndexImmediate
  | .moveAccToIndex => m.moveAccToIndex
  | .store => m.store
  | .addImm => m.addImm
  | .addMem => m.addMem
  | .subImm => m.subImm
  | .subMem => m.subMem
  | .incAcc => m.incAcc
  | .incIndex => m.incIndex
  | .decAcc => m.decAcc
  | .decIndex => m.decIndex
  | .compareMem => m.compareMem
  | .compareImm => m.compareImm
  | .compareIndirect => m.compareIndirect
  | .jump => m.jump
  | .jumpIfEqual => m.jumpIfEqual
  | .jumpIfNotEqual => m.jumpIfNotEqual
  | .andImm => m.andImm
  | .andMem => m.andMem
  | .xorImm => m.xorImm
  | .xorMem => m.xorMem
  | .orImm => m.orImm
  | .orMem => m.orMem
  | .shiftLeft => m.shiftLeft
  | .shiftRight => m.shiftRight
  | .charIn => m.charIn
  | .charOut => m.charOut
  | .halt => m.halt
  | .inspect => m.inspect

/-- The map that gives each name the word `f` does: every map of R52 is one of these. -/
def OpcodeMap.ofFun (f : OpName → Word) : OpcodeMap where
  loadImmediate := f .loadImmediate
  loadDirect := f .loadDirect
  loadIndirect := f .loadIndirect
  loadIndexed := f .loadIndexed
  loadIndexImmediate := f .loadIndexImmediate
  moveAccToIndex := f .moveAccToIndex
  store := f .store
  addImm := f .addImm
  addMem := f .addMem
  subImm := f .subImm
  subMem := f .subMem
  incAcc := f .incAcc
  incIndex := f .incIndex
  decAcc := f .decAcc
  decIndex := f .decIndex
  compareMem := f .compareMem
  compareImm := f .compareImm
  compareIndirect := f .compareIndirect
  jump := f .jump
  jumpIfEqual := f .jumpIfEqual
  jumpIfNotEqual := f .jumpIfNotEqual
  andImm := f .andImm
  andMem := f .andMem
  xorImm := f .xorImm
  xorMem := f .xorMem
  orImm := f .orImm
  orMem := f .orMem
  shiftLeft := f .shiftLeft
  shiftRight := f .shiftRight
  charIn := f .charIn
  charOut := f .charOut
  halt := f .halt
  inspect := f .inspect

/-- The defaults of R5 (D1 to D4, D8, D10), "the value this spec's test vectors use". -/
def Params.default : Params where
  memWords := 1024
  opcode := OpcodeMap.ofFun OpName.opcode
  entry := 0
  shiftOversize := .zero
  eofPolicy := .hold
  resetAcc := 0
  resetIx := 0
  resetFlag := 0

/-- The toolchain of the spec's rules (R63, R64, D20, D24) with given prefixes, for which there is no default (D21). -/
def Toolchain.default (bin hex oct : Char) : Toolchain where
  bin := bin
  hex := hex
  oct := oct
  bareBase := 10
  duplicates := .lowestAddress

/-- The column "operand use" of R51. -/
def OpName.operandUse : OpName → OperandUse
  | .loadImmediate => .imm
  | .loadDirect => .addr
  | .loadIndirect => .ptr
  | .loadIndexed => .base
  | .loadIndexImmediate => .imm
  | .moveAccToIndex => .ignored
  | .store => .addr
  | .addImm => .imm
  | .addMem => .addr
  | .subImm => .imm
  | .subMem => .addr
  | .incAcc => .ignored
  | .incIndex => .ignored
  | .decAcc => .ignored
  | .decIndex => .ignored
  | .compareMem => .addr
  | .compareImm => .imm
  | .compareIndirect => .ptr
  | .jump => .target
  | .jumpIfEqual => .target
  | .jumpIfNotEqual => .target
  | .andImm => .imm
  | .andMem => .addr
  | .xorImm => .imm
  | .xorMem => .addr
  | .orImm => .imm
  | .orMem => .addr
  | .shiftLeft => .shamt
  | .shiftRight => .shamt
  | .charIn => .ignored
  | .charOut => .ignored
  | .halt => .ignored
  | .inspect => .ignored

/-- The instruction of a name and an operand word (R75: `Execute_n(op, opd, a0)`). -/
def Instr.ofName : OpName → Word → Instr
  | .loadImmediate, opd => .loadImmediate opd
  | .loadDirect, opd => .loadDirect opd
  | .loadIndirect, opd => .loadIndirect opd
  | .loadIndexed, opd => .loadIndexed opd
  | .loadIndexImmediate, opd => .loadIndexImmediate opd
  | .moveAccToIndex, opd => .moveAccToIndex opd
  | .store, opd => .store opd
  | .addImm, opd => .addImm opd
  | .addMem, opd => .addMem opd
  | .subImm, opd => .subImm opd
  | .subMem, opd => .subMem opd
  | .incAcc, opd => .incAcc opd
  | .incIndex, opd => .incIndex opd
  | .decAcc, opd => .decAcc opd
  | .decIndex, opd => .decIndex opd
  | .compareMem, opd => .compareMem opd
  | .compareImm, opd => .compareImm opd
  | .compareIndirect, opd => .compareIndirect opd
  | .jump, opd => .jump opd
  | .jumpIfEqual, opd => .jumpIfEqual opd
  | .jumpIfNotEqual, opd => .jumpIfNotEqual opd
  | .andImm, opd => .andImm opd
  | .andMem, opd => .andMem opd
  | .xorImm, opd => .xorImm opd
  | .xorMem, opd => .xorMem opd
  | .orImm, opd => .orImm opd
  | .orMem, opd => .orMem opd
  | .shiftLeft, opd => .shiftLeft opd
  | .shiftRight, opd => .shiftRight opd
  | .charIn, opd => .charIn opd
  | .charOut, opd => .charOut opd
  | .halt, opd => .halt opd
  | .inspect, opd => .inspect opd

/-- The name of an instruction. -/
def Instr.name : Instr → OpName
  | .loadImmediate _ => .loadImmediate
  | .loadDirect _ => .loadDirect
  | .loadIndirect _ => .loadIndirect
  | .loadIndexed _ => .loadIndexed
  | .loadIndexImmediate _ => .loadIndexImmediate
  | .moveAccToIndex _ => .moveAccToIndex
  | .store _ => .store
  | .addImm _ => .addImm
  | .addMem _ => .addMem
  | .subImm _ => .subImm
  | .subMem _ => .subMem
  | .incAcc _ => .incAcc
  | .incIndex _ => .incIndex
  | .decAcc _ => .decAcc
  | .decIndex _ => .decIndex
  | .compareMem _ => .compareMem
  | .compareImm _ => .compareImm
  | .compareIndirect _ => .compareIndirect
  | .jump _ => .jump
  | .jumpIfEqual _ => .jumpIfEqual
  | .jumpIfNotEqual _ => .jumpIfNotEqual
  | .andImm _ => .andImm
  | .andMem _ => .andMem
  | .xorImm _ => .xorImm
  | .xorMem _ => .xorMem
  | .orImm _ => .orImm
  | .orMem _ => .orMem
  | .shiftLeft _ => .shiftLeft
  | .shiftRight _ => .shiftRight
  | .charIn _ => .charIn
  | .charOut _ => .charOut
  | .halt _ => .halt
  | .inspect _ => .inspect

/-- The operand word of an instruction, exactly as stored (R50). -/
def Instr.operand : Instr → Word
  | .loadImmediate opd => opd
  | .loadDirect opd => opd
  | .loadIndirect opd => opd
  | .loadIndexed opd => opd
  | .loadIndexImmediate opd => opd
  | .moveAccToIndex opd => opd
  | .store opd => opd
  | .addImm opd => opd
  | .addMem opd => opd
  | .subImm opd => opd
  | .subMem opd => opd
  | .incAcc opd => opd
  | .incIndex opd => opd
  | .decAcc opd => opd
  | .decIndex opd => opd
  | .compareMem opd => opd
  | .compareImm opd => opd
  | .compareIndirect opd => opd
  | .jump opd => opd
  | .jumpIfEqual opd => opd
  | .jumpIfNotEqual opd => opd
  | .andImm opd => opd
  | .andMem opd => opd
  | .xorImm opd => opd
  | .xorMem opd => opd
  | .orImm opd => opd
  | .orMem opd => opd
  | .shiftLeft opd => opd
  | .shiftRight opd => opd
  | .charIn opd => opd
  | .charOut opd => opd
  | .halt opd => opd
  | .inspect opd => opd

/-- What an instruction pair decodes to: one of the 33 instructions, or the "single explicit unknown/unsupported
variant" (R74), which keeps the opcode word it rejects. -/
inductive Decoded where
  | instr (i : Instr)
  | unknown (op : Word)
deriving DecidableEq, Repr

/-- Decoding under a given OPCODE map (R49, R52, R74): all 64 bits of the opcode word are compared, and the operand
word never selects. -/
def decodeWith (opcode : OpName → Word) (op opd : Word) : Decoded :=
  match OpName.all.find? (fun n => opcode n == op) with
  | some n => .instr (Instr.ofName n opd)
  | none => .unknown op

/-- Decoding under the default map (R74): the words of the opcode table. -/
def decode (op opd : Word) : Decoded :=
  decodeWith OpName.opcode op opd

/-- Why a list of words holds no instruction at its head. -/
inductive DecodeError where
  /-- fewer than two words are left (R48, R55); how many there are -/
  | truncated (left : Nat)
  /-- the opcode word is outside the defined set (R53) -/
  | unknownOpcode (op : Word)
deriving DecidableEq, Repr

/-- The instruction at the head of a list of words, and the words after it; total, and every rejection is named. -/
def decodeWords : List Word → Except DecodeError (Instr × List Word)
  | op :: opd :: rest =>
    match decode op opd with
    | .instr i => .ok (i, rest)
    | .unknown op => .error (.unknownOpcode op)
  | short => .error (.truncated short.length)

/-- The two words of an instruction numbered as the opcode table numbers its bits: the first word is bits 63..0 and
the second bits 127..64; every bit above `nbits` is 0. -/
def tableWords (nbits w : Nat) : Word × Word :=
  (BitVec.ofNat 64 (w % 2 ^ nbits), BitVec.ofNat 64 (w % 2 ^ nbits / 2 ^ 64))

/-- The instruction the decoder reads from the table's word `w` of `nbits` bits. -/
def decodeTableWord (nbits w : Nat) : Option Instr :=
  match decodeWords [(tableWords nbits w).1, (tableWords nbits w).2] with
  | .ok (i, _) => some i
  | .error _ => none

/-- The words of an instruction under a given OPCODE map (R48, R51). -/
def encodeWith (opcode : OpName → Word) (i : Instr) : Word × Word :=
  (opcode i.name, i.operand)

/-- The words of an instruction under the default map. -/
def encode (i : Instr) : Word × Word :=
  encodeWith OpName.opcode i

end Sys2Proof
end

