-- ==== Sys2Proof/Machine/State.lean ====
section
/-! DEFINITION. The state of the machine (R13 to R26), as plain data, and the state at the start of a run before a
program is loaded (R26, R142). Memory is a list of (word address, word) pairs: the word is "the addressable unit of
memory" and there is no byte in it (R27, R32); log entry 1. -/

namespace Sys2Proof.Machine

/-- Why a run ended in `Faulted` (R18, R125 to R127). -/
inductive FaultReason where
  /-- `PC >= N` at the start of a step (R70, R125) -/
  | pcOutOfRange
  /-- `PC = N - 1` at the start of a step: the operand word lies outside memory (R71, R126) -/
  | operandFetchOutOfRange
  /-- a data access at the recorded address `a >= N` (R28, R127) -/
  | dataAddressOutOfRange (a : Word)
deriving DecidableEq, Repr

/-- `status`, the run status (R18). -/
inductive Status where
  | running
  | halted
  | faulted (r : FaultReason)
  /-- reserved by R18; no rule, and no step of this model, produces it -/
  | refused
deriving DecidableEq, Repr

/-- The memory `M` (R23, R27): the listed words by rising word address; every other word is 0 (R142). -/
abbrev Memory := List (Nat × Word)

/-- The label table `L` (R24): at most one name per address, by rising address; a name is its characters. -/
abbrev LabelTable := List (Nat × List Char)

/-- One report of the diagnostic stream: the pair `(a0, op)` (R19, R123, D12). -/
structure Report where
  addr : Word
  opcode : Word
deriving DecidableEq, Repr

/-- One snapshot of the debug stream: "all four registers, the full memory array, and the label table" (R122). -/
structure Snapshot where
  acc : Word
  ix : Word
  pc : Word
  flag : Flag
  mem : Memory
  labels : LabelTable
deriving DecidableEq, Repr

/-- The state tuple of R13, with the machine's parameters beside it. -/
structure State where
  /-- THE MODEL'S OWN: the parameters of R5, "configuration" and no state (R13); no step writes them (log entry 24) -/
  params : Params
  /-- `ACC`, the accumulator (R14) -/
  acc : Word
  /-- `IX`, the index register (R15) -/
  ix : Word
  /-- `PC`, the word address of the next instruction pair (R16) -/
  pc : Word
  /-- `FLAG`, the comparison flag (R17) -/
  flag : Flag
  /-- `M` (R23) -/
  mem : Memory
  /-- `L` (R24) -/
  labels : LabelTable
  /-- `status` (R18) -/
  status : Status
  /-- `in`, the bytes the host will supply, next one first (R19) -/
  input : List Byte
  /-- `out`, the bytes written by char-out, oldest first (R19) -/
  output : List Byte
  /-- `diag`, the unknown-opcode reports, oldest first (R19) -/
  diag : List Report
  /-- `dbg`, the snapshots handed over by inspect, oldest first (R19) -/
  dbg : List Snapshot
  /-- THE MODEL'S OWN, not the spec's: how many free values have been drawn (log entry 9) -/
  draws : Nat
deriving DecidableEq, Repr

/-- Why `step` answers no next state. Each is SAFE: the spec says that no step is taken there. -/
inductive Fault where
  /-- raised by `step` when `status` is `Halted`, which is terminal (R68). Safe. -/
  | halted
  /-- raised by `step` when `status` is `Faulted(r)`, which is terminal (R68). Safe. -/
  | faulted (r : FaultReason)
  /-- raised by `step` when `status` is the reserved value `Refused`: only `Running` takes a step (R68). Safe. -/
  | refusedStatus
  /-- raised by char-in while `in` is empty under EOF_POLICY = hold: "no step" (R116, R117). Safe. -/
  | waitingForInput
deriving DecidableEq, Repr

/-- Why an instruction has no meaning in the model. -/
inductive Refusal where
  /-- raised by an arm of `exec` whose instruction has no meaning yet; no arm raises it any more. Safe. -/
  | notModelled (mnemonic : String)
deriving DecidableEq, Repr

/-- What a step answers. -/
abbrev StepResult := Host.Outcome State Fault Refusal

/-- The start of a run before a program is loaded (R26, R142 steps 1, 3 and 4), under given parameters and with the
host's input, "a parameter of the run": memory all zero, the label table empty, `PC` at `ENTRY`, `Running`, and the
output streams empty. -/
def State.resetWith (p : Params) (input : List Byte) : State where
  params := p
  acc := p.resetAcc
  ix := p.resetIx
  pc := p.entry
  flag := p.resetFlag
  mem := []
  labels := []
  status := .running
  input := input
  output := []
  diag := []
  dbg := []
  draws := 0

/-- The machine right after reset: the defaults of R5, and no input (DESIGN CHOICE: log entry 4). -/
def State.reset : State := State.resetWith Params.default []

end Sys2Proof.Machine
end

