-- ==== Sys2Proof/WellFormed.lean ====
section
/-! DEFINITION. The checks on terms. No instruction is ill-formed on this hardware (R54: "every 64-bit operand value is
accepted by every opcode"), so `Instr.wf` holds of every one; the other checks are those the spec puts on the
parameters (R5, R52, D21) and on what a toolchain writes (R57). The checks on memory, label tables and program images
stand beside those types (Machine/Ops.lean, Machine/Load.lean). -/

namespace Sys2Proof

/-- Every instruction is well-formed, whatever its operand word (R54). -/
def Instr.wf (_ : Instr) : Bool := true

/-- The form a toolchain writes (R57, D25): an ignored operand word is 0. The core executes the other forms too. -/
def Instr.toolchainForm (i : Instr) : Bool :=
  i.name.operandUse != .ignored || i.operand == 0

/-- The constraint on the parameter OPCODE (R52): no two names share a value. -/
def opcodeMapOk (opcode : OpName → Word) : Bool :=
  OpName.all.all fun m => OpName.all.all fun n => m == n || opcode m != opcode n

/-- The constraint on the parameter `N` (R5): 2 <= N <= 2^64. -/
def memWordsOk (n : Nat) : Bool :=
  decide (2 ≤ n) && decide (n ≤ 2 ^ 64)

/-- The constraints on the parameters of the core (R5, R52). ENTRY, the policies and the reset values have none. -/
def Params.ok (p : Params) : Bool := memWordsOk p.memWords && opcodeMapOk p.opcode.of

/-- The constraint on the toolchain's parameters: the prefixes are distinct from `#` and from each other (D21), and the
base of a bare number is one the digits of R65 serve. -/
def Toolchain.ok (p : Toolchain) : Bool :=
  p.bin != '#' && p.hex != '#' && p.oct != '#' && p.bin != p.hex && p.bin != p.oct && p.hex != p.oct &&
    decide (2 ≤ p.bareBase) && decide (p.bareBase ≤ 16)

end Sys2Proof
end

