-- ==== Sys2Proof/Machine/Ops.lean ====
section
/-! DEFINITION. The operations the meanings are written over: the memory (R27 to R30), the register and stream writes
(R8, R10), the fetch and its checks (R70 to R73), and ending a run in a fault (R77, R133), the machine's only form of
exception: nothing is saved, no handler is entered and nothing returns from it (R133, R134). -/

namespace Sys2Proof.Machine

/-! ### Memory -/

/-- What a word that nothing has written reads as: "initialized to all-zero words" (R142). -/
def Memory.blank : Word := 0

/-- The word at a word address, with no range check (R72's `Fetch`, and inside `MemRead`). -/
def Memory.read : Memory → Nat → Word
  | [], _ => Memory.blank
  | (k, v) :: rest, a => if k = a then v else Memory.read rest a

/-- Replace all 64 bits of one word (R30), keeping the list's form: rising addresses, no blank word listed. -/
def Memory.write : Memory → Nat → Word → Memory
  | [], a, v => if v = Memory.blank then [] else [(a, v)]
  | (k, w) :: rest, a, v =>
    if a < k then
      if v = Memory.blank then (k, w) :: rest else (a, v) :: (k, w) :: rest
    else if a = k then
      if v = Memory.blank then rest else (a, v) :: rest
    else (k, w) :: Memory.write rest a v

/-- The form of a memory of `n` words whose listed addresses start at `lo`. -/
def Memory.wfFrom (n : Nat) : Nat → Memory → Bool
  | _, [] => true
  | lo, (k, v) :: rest =>
    decide (lo ≤ k) && decide (k < n) && v != Memory.blank && Memory.wfFrom n (k + 1) rest

/-- The canonical form, for `n` = `N`: addresses strictly rising, all below `n` (R27), and no blank word listed. -/
def Memory.wf (n : Nat) (m : Memory) : Bool := Memory.wfFrom n 0 m

/-- The form of a label table for `n` addresses whose listed ones start at `lo`. -/
def LabelTable.wfFrom (n : Nat) : Nat → LabelTable → Bool
  | _, [] => true
  | lo, (k, name) :: rest =>
    decide (lo ≤ k) && decide (k < n) && name != [] && LabelTable.wfFrom n (k + 1) rest

/-- R24, for `n` = `N`: addresses below `n`, at most one name per address (so strictly rising), and no empty entry. -/
def LabelTable.wf (n : Nat) (t : LabelTable) : Bool := LabelTable.wfFrom n 0 t

/-- `a` is an address of the memory of `s` (R27, R28). -/
abbrev inRange (s : State) (a : Word) : Prop := a.toNat < s.params.memWords

/-- `MemRead(a, 1)` (R29). -/
def State.memRead (s : State) (a : Word) : Except FaultReason Word :=
  if inRange s a then .ok (s.mem.read a.toNat) else .error (.dataAddressOutOfRange a)

/-! ### Register, status and stream writes (R8, R10) -/

def State.setAcc (s : State) (v : Word) : State := { s with acc := v }
def State.setIx (s : State) (v : Word) : State := { s with ix := v }
def State.setPc (s : State) (v : Word) : State := { s with pc := v }
def State.setFlag (s : State) (f : Flag) : State := { s with flag := f }
def State.setMem (s : State) (m : Memory) : State := { s with mem := m }
def State.setStatus (s : State) (st : Status) : State := { s with status := st }
def State.setInput (s : State) (bs : List Byte) : State := { s with input := bs }

/-- `Emit(out, b)` (R118): appends, never blocks, never fails. -/
def State.emitOut (s : State) (b : Byte) : State := { s with output := s.output ++ [b] }

/-- `Emit(diag, (a0, op))` (R123). -/
def State.emitDiag (s : State) (a0 op : Word) : State := { s with diag := s.diag ++ [{ addr := a0, opcode := op }] }

/-- `Emit(dbg, snapshot)` (R121). -/
def State.emitDbg (s : State) (p : Snapshot) : State := { s with dbg := s.dbg ++ [p] }

/-- Count one more free value drawn (the model's own; log entry 9). -/
def State.countDraw (s : State) : State := { s with draws := s.draws + 1 }

/-- The snapshot of R122. -/
def State.snapshot (s : State) : Snapshot where
  acc := s.acc
  ix := s.ix
  pc := s.pc
  flag := s.flag
  mem := s.mem
  labels := s.labels

/-! ### Ending a run in a fault -/

/-- `raise` (R9, R77, R133): the step ends with `status <- Faulted(r)` and writes nothing else. It is the whole of
taking an exception on this machine: a next state, terminal by R68. -/
def raise (r : FaultReason) (s : State) : StepResult := .next (s.setStatus (.faulted r))

/-- Go on with a value that was read, or raise the fault its read met (R77): `k v` is the instruction's effect. -/
def withValue (r : Except FaultReason Word) (s : State) (k : Word → State) : StepResult :=
  match r with
  | .ok v => .next (k v)
  | .error e => raise e s

/-- `MemWrite(a, 1, v)` (R30): the range check comes before the write. -/
def memWrite (a v : Word) (s : State) : StepResult :=
  if inRange s a then .next (s.setMem (s.mem.write a.toNat v)) else raise (.dataAddressOutOfRange a) s

/-! ### The cycle (R68 to R76) -/

/-- Whether a step applies: only when `status = Running` (R68); otherwise why not. -/
def State.stopped (s : State) : Option Fault :=
  match s.status with
  | .running => none
  | .halted => some .halted
  | .faulted r => some (.faulted r)
  | .refused => some .refusedStatus

/-- The two range checks of `PC` before the fetch, in their order (R70, R71). -/
def State.fetchCheck (s : State) : Option FaultReason :=
  if s.params.memWords ≤ s.pc.toNat then some .pcOutOfRange
  else if s.pc.toNat + 1 = s.params.memWords then some .operandFetchOutOfRange
  else none

/-- The opcode word at `PC` (R72). -/
def State.fetchOp (s : State) : Word := s.mem.read s.pc.toNat

/-- The operand word at `PC + 1` (R72). -/
def State.fetchOperand (s : State) : Word := s.mem.read (s.pc.toNat + 1)

/-- Decoding under the machine's own OPCODE (R52, R74). -/
def State.decode (s : State) (op opd : Word) : Decoded := decodeWith s.params.opcode.of op opd

/-- The advance before executing (R73). -/
def State.advance (s : State) : State := s.setPc (s.pc + 2)

/-- An unknown opcode: report it and go on at `a0 + 2` (R76). -/
def skipUnknown (op : Word) (s : State) : StepResult := .next (s.advance.emitDiag s.pc op)

/-! ### Character input and oversize shifts, under their parameters -/

/-- `ReadChar()` and what char-in loads (R116, R117): the byte at the head of `in`, zero-extended; while `in` is empty,
under EOF_POLICY none for `hold`, and the next free value for `anyValue`. The state is the one after the draw. -/
def State.readChar (s : State) : Option (Word × State) :=
  match s.input with
  | c :: rest => some (c.setWidth 64, s.setInput rest)
  | [] =>
    match s.params.eofPolicy with
    | .hold => none
    | .anyValue => some (Config.freeWord s.draws, s.countDraw)

/-- A shift of `ACC` by `amount` (R114, R115): `shifted` is the logical shift, used for amounts below 64 only; the amount
is not masked, and from 64 on SHIFT_OVERSIZE says the result. -/
def shiftAcc (shifted : Word → Nat → Word) (amount : Word) (s : State) : State :=
  if amount.toNat < 64 then s.setAcc (shifted s.acc amount.toNat)
  else
    match s.params.shiftOversize with
    | .zero => s.setAcc 0
    | .anyValue => (s.setAcc (Config.freeWord s.draws)).countDraw

/-! ### What the host reads -/

/-- The numbered outcomes of R130 (D26); no instruction reads them, and `Refused` has no number. -/
def Status.code : Status → Option Nat
  | .running => some 0
  | .halted => some 1
  | .faulted .pcOutOfRange => some 2
  | .faulted .operandFetchOutOfRange => some 3
  | .faulted (.dataAddressOutOfRange _) => some 4
  | .refused => none

end Sys2Proof.Machine
end

