-- ==== Sys2Proof/Machine/Operands.lean ====
section
/-! DEFINITION. The four operand forms (R38 to R41): the value an instruction uses, or the range fault its read meets.
No form changes a register (R41). -/

namespace Sys2Proof.Machine

/-- Immediate form (R38): the operand word itself, all 64 bits. -/
def immediate (opd : Word) : Word := opd

/-- The effective address of the direct form (R39), also the address store writes (R87). -/
def directAddress (opd : Word) : Word := opd

/-- Direct form (R39). -/
def direct (s : State) (opd : Word) : Except FaultReason Word := s.memRead (directAddress opd)

/-- Indirect form (R40): two range-checked reads, first at `opd`, then at the pointer found there. -/
def indirect (s : State) (opd : Word) : Except FaultReason Word :=
  match s.memRead opd with
  | .ok p => s.memRead p
  | .error e => .error e

/-- The effective address of the indexed form (R41): the sum modulo 2^64. -/
def indexedAddress (s : State) (opd : Word) : Word := opd + s.ix

/-- Indexed form (R41): the range check applies to the wrapped sum. -/
def indexed (s : State) (opd : Word) : Except FaultReason Word := s.memRead (indexedAddress s opd)

end Sys2Proof.Machine
end

