-- ==== Sys2Proof/Machine/Flags.lean ====
section
/-! DEFINITION. The one flag: the equality test that writes it (R7, R98 to R100) and the branch conditions that read it
(R101). The arithmetic instructions maintain no carry or overflow (R17, R97). -/

namespace Sys2Proof.Machine

/-- `a == b` (R7): 1 when all 64 bits are equal, else 0. -/
def equalFlag (a b : Word) : Flag := if a = b then 1 else 0

/-- The three rows of the table of branch conditions (R101). -/
def takenAlways (_ : Flag) : Bool := true
def takenIfEqual (f : Flag) : Bool := f == 1
def takenIfNotEqual (f : Flag) : Bool := f == 0

/-- When taken, `pc <- opd`, an absolute word address that is not checked here (R101, R105); otherwise `PC` keeps its
advanced value. -/
def branch (taken : Flag → Bool) (opd : Word) (s : State) : StepResult :=
  .next (if taken s.flag then s.setPc opd else s)

end Sys2Proof.Machine
end

