-- ==== Sys2Proof/Machine/Arithmetic.lean ====
section
/-! DEFINITION. Arithmetic (42_arithmetic.md, R89 to R96): `+` and `-` on 64-bit words wrap modulo 2^64, with no trap,
no carry and no flag (R97). -/

namespace Sys2Proof.Machine

/-- R89: `x[ACC] <- x[ACC] + opd`. -/
def execAddImm (opd : Word) (s : State) : StepResult := .next (s.setAcc (s.acc + immediate opd))

/-- R90: `x[ACC] <- x[ACC] + MemRead(opd, 1)`. -/
def execAddMem (opd : Word) (s : State) : StepResult := withValue (direct s opd) s fun v => s.setAcc (s.acc + v)

/-- R91: `x[ACC] <- x[ACC] - opd`. -/
def execSubImm (opd : Word) (s : State) : StepResult := .next (s.setAcc (s.acc - immediate opd))

/-- R92: `x[ACC] <- x[ACC] - MemRead(opd, 1)`. -/
def execSubMem (opd : Word) (s : State) : StepResult := withValue (direct s opd) s fun v => s.setAcc (s.acc - v)

/-- R93: `x[ACC] <- x[ACC] + 1`; the operand word is ignored. -/
def execIncAcc (_opd : Word) (s : State) : StepResult := .next (s.setAcc (s.acc + 1))

/-- R94: `x[IX] <- x[IX] + 1`; the operand word is ignored. -/
def execIncIndex (_opd : Word) (s : State) : StepResult := .next (s.setIx (s.ix + 1))

/-- R95: `x[ACC] <- x[ACC] - 1`; the operand word is ignored. -/
def execDecAcc (_opd : Word) (s : State) : StepResult := .next (s.setAcc (s.acc - 1))

/-- R96: `x[IX] <- x[IX] - 1`; the operand word is ignored. -/
def execDecIndex (_opd : Word) (s : State) : StepResult := .next (s.setIx (s.ix - 1))

end Sys2Proof.Machine
end

