-- ==== Sys2Proof/Machine/BitwiseShift.lean ====
section
/-! DEFINITION. Bitwise and shift (44_bitwise_shift.md, R108 to R115). No instruction here writes `FLAG`. -/

namespace Sys2Proof.Machine

/-- R108: `x[ACC] <- x[ACC] & opd`. -/
def execAndImm (opd : Word) (s : State) : StepResult := .next (s.setAcc (s.acc &&& immediate opd))

/-- R109: `x[ACC] <- x[ACC] & MemRead(opd, 1)`. -/
def execAndMem (opd : Word) (s : State) : StepResult := withValue (direct s opd) s fun v => s.setAcc (s.acc &&& v)

/-- R110: `x[ACC] <- x[ACC] ^ opd`. -/
def execXorImm (opd : Word) (s : State) : StepResult := .next (s.setAcc (s.acc ^^^ immediate opd))

/-- R111: `x[ACC] <- x[ACC] ^ MemRead(opd, 1)`. -/
def execXorMem (opd : Word) (s : State) : StepResult := withValue (direct s opd) s fun v => s.setAcc (s.acc ^^^ v)

/-- R112: `x[ACC] <- x[ACC] | opd`. -/
def execOrImm (opd : Word) (s : State) : StepResult := .next (s.setAcc (s.acc ||| immediate opd))

/-- R113: `x[ACC] <- x[ACC] | MemRead(opd, 1)`. -/
def execOrMem (opd : Word) (s : State) : StepResult := withValue (direct s opd) s fun v => s.setAcc (s.acc ||| v)

/-- R114: a logical left shift by the unmasked operand word; 64 or more under SHIFT_OVERSIZE. -/
def execShiftLeft (opd : Word) (s : State) : StepResult :=
  .next (shiftAcc (fun v n => v <<< n) (immediate opd) s)

/-- R115: a logical right shift by the unmasked operand word; 64 or more under SHIFT_OVERSIZE. -/
def execShiftRight (opd : Word) (s : State) : StepResult :=
  .next (shiftAcc (fun v n => v >>> n) (immediate opd) s)

end Sys2Proof.Machine
end

