-- ==== Sys2Proof/Machine/CompareBranch.lean ====
section
/-! DEFINITION. Compare and branch (43_compare_branch.md, R98 to R105). The compares write `FLAG` and nothing else; the
branches write `PC` and nothing else. -/

namespace Sys2Proof.Machine

/-- R98: `x[FLAG] <- (x[ACC] == MemRead(opd, 1))`. -/
def execCompareMem (opd : Word) (s : State) : StepResult :=
  withValue (direct s opd) s fun v => s.setFlag (equalFlag s.acc v)

/-- R99: `x[FLAG] <- (x[ACC] == opd)`. -/
def execCompareImm (opd : Word) (s : State) : StepResult := .next (s.setFlag (equalFlag s.acc (immediate opd)))

/-- R100: `x[FLAG] <- (x[ACC] == MemRead(MemRead(opd, 1), 1))`. -/
def execCompareIndirect (opd : Word) (s : State) : StepResult :=
  withValue (indirect s opd) s fun v => s.setFlag (equalFlag s.acc v)

/-- R102: `pc <- opd`. -/
def execJump (opd : Word) (s : State) : StepResult := branch takenAlways opd s

/-- R103: `if x[FLAG] == 1: pc <- opd`. -/
def execJumpIfEqual (opd : Word) (s : State) : StepResult := branch takenIfEqual opd s

/-- R104: `if x[FLAG] == 0: pc <- opd`. -/
def execJumpIfNotEqual (opd : Word) (s : State) : StepResult := branch takenIfNotEqual opd s

end Sys2Proof.Machine
end

