-- ==== Sys2Proof/Machine/IoControl.lean ====
section
/-! DEFINITION. I/O, control and debug (45_io_control.md, R116 to R122). All four ignore their operand word. -/

namespace Sys2Proof.Machine

/-- R117: `x[ACC] <- zext_64(ReadChar())`; no step while no byte is available (R116) under EOF_POLICY = hold. -/
def execCharIn (_opd : Word) (s : State) : StepResult :=
  match s.readChar with
  | some (v, s') => .next (s'.setAcc v)
  | none => .fault .waitingForInput

/-- R119: `Emit(out, x[ACC][7:0])`. -/
def execCharOut (_opd : Word) (s : State) : StepResult := .next (s.emitOut (s.acc.setWidth 8))

/-- R120: `status <- Halted`; every register keeps its value. -/
def execHalt (_opd : Word) (s : State) : StepResult := .next (s.setStatus .halted)

/-- R121: `Emit(dbg, Snapshot(...))`; `PC` in the snapshot is `a0 + 2`. -/
def execInspect (_opd : Word) (s : State) : StepResult := .next (s.emitDbg s.snapshot)

end Sys2Proof.Machine
end

