-- ==== Sys2Proof/Machine/LoadStore.lean ====
section
/-! DEFINITION. Load, transfer and store (41_load_store.md, R81 to R87). Every meaning starts with `PC` at `a0 + 2`. -/

namespace Sys2Proof.Machine

/-- R81: `x[ACC] <- opd`. -/
def execLoadImmediate (opd : Word) (s : State) : StepResult := .next (s.setAcc (immediate opd))

/-- R82: `x[ACC] <- MemRead(opd, 1)`. -/
def execLoadDirect (opd : Word) (s : State) : StepResult := withValue (direct s opd) s s.setAcc

/-- R83: `x[ACC] <- MemRead(MemRead(opd, 1), 1)`. -/
def execLoadIndirect (opd : Word) (s : State) : StepResult := withValue (indirect s opd) s s.setAcc

/-- R84: `x[ACC] <- MemRead(opd + x[IX], 1)`. -/
def execLoadIndexed (opd : Word) (s : State) : StepResult := withValue (indexed s opd) s s.setAcc

/-- R85: `x[IX] <- opd`. -/
def execLoadIndexImmediate (opd : Word) (s : State) : StepResult := .next (s.setIx (immediate opd))

/-- R86: `x[IX] <- x[ACC]`; the operand word is ignored. -/
def execMoveAccToIndex (_opd : Word) (s : State) : StepResult := .next (s.setIx s.acc)

/-- R87: `MemWrite(opd, 1, x[ACC])`. -/
def execStore (opd : Word) (s : State) : StepResult := memWrite (directAddress opd) s.acc s

end Sys2Proof.Machine
end

