-- ==== Sys2Proof/Machine/Dispatch.lean ====
section
/-! DEFINITION. The dispatch (R75): "exactly one semantic action" per instruction, one arm per constructor. -/

namespace Sys2Proof.Machine

def exec (i : Instr) (s : State) : Host.Outcome State Fault Refusal :=
  match i with
  -- Load, transfer, store
  | .loadImmediate opd => Sys2Proof.Machine.execLoadImmediate opd s
  | .loadDirect opd => Sys2Proof.Machine.execLoadDirect opd s
  | .loadIndirect opd => Sys2Proof.Machine.execLoadIndirect opd s
  | .loadIndexed opd => Sys2Proof.Machine.execLoadIndexed opd s
  | .loadIndexImmediate opd => Sys2Proof.Machine.execLoadIndexImmediate opd s
  | .moveAccToIndex opd => Sys2Proof.Machine.execMoveAccToIndex opd s
  | .store opd => Sys2Proof.Machine.execStore opd s
  -- Arithmetic
  | .addImm opd => Sys2Proof.Machine.execAddImm opd s
  | .addMem opd => Sys2Proof.Machine.execAddMem opd s
  | .subImm opd => Sys2Proof.Machine.execSubImm opd s
  | .subMem opd => Sys2Proof.Machine.execSubMem opd s
  | .incAcc opd => Sys2Proof.Machine.execIncAcc opd s
  | .incIndex opd => Sys2Proof.Machine.execIncIndex opd s
  | .decAcc opd => Sys2Proof.Machine.execDecAcc opd s
  | .decIndex opd => Sys2Proof.Machine.execDecIndex opd s
  -- Compare and branch
  | .compareMem opd => Sys2Proof.Machine.execCompareMem opd s
  | .compareImm opd => Sys2Proof.Machine.execCompareImm opd s
  | .compareIndirect opd => Sys2Proof.Machine.execCompareIndirect opd s
  | .jump opd => Sys2Proof.Machine.execJump opd s
  | .jumpIfEqual opd => Sys2Proof.Machine.execJumpIfEqual opd s
  | .jumpIfNotEqual opd => Sys2Proof.Machine.execJumpIfNotEqual opd s
  -- Bitwise and shift
  | .andImm opd => Sys2Proof.Machine.execAndImm opd s
  | .andMem opd => Sys2Proof.Machine.execAndMem opd s
  | .xorImm opd => Sys2Proof.Machine.execXorImm opd s
  | .xorMem opd => Sys2Proof.Machine.execXorMem opd s
  | .orImm opd => Sys2Proof.Machine.execOrImm opd s
  | .orMem opd => Sys2Proof.Machine.execOrMem opd s
  | .shiftLeft opd => Sys2Proof.Machine.execShiftLeft opd s
  | .shiftRight opd => Sys2Proof.Machine.execShiftRight opd s
  -- I/O, control, debug
  | .charIn opd => Sys2Proof.Machine.execCharIn opd s
  | .charOut opd => Sys2Proof.Machine.execCharOut opd s
  | .halt opd => Sys2Proof.Machine.execHalt opd s
  | .inspect opd => Sys2Proof.Machine.execInspect opd s

end Sys2Proof.Machine
end

