-- ==== Sys2Proof/Machine/Resolver.lean ====
section
/-! DEFINITION. The operand resolver (R61 to R67): the load-time step that turns one textual operand token into an
operand word. It is toolchain, outside the hardware block (R4 (d), C1): no step of the machine calls it. A token is
the list of its characters. -/

namespace Sys2Proof.Machine

/-- A fatal resolution failure, with the offending token (R65, R66). -/
inductive ResolveError where
  /-- the numeric parse reads zero digits (R65, R66) -/
  | malformed (token : List Char)
  /-- the value is above 2^64 - 1 (R65, D22) -/
  | tooLarge (token : List Char)
deriving DecidableEq, Repr

/-- The value of a character as a digit; letters of either case stand for 10 to 15 (DESIGN CHOICE: log entry 10). -/
def digitValue (c : Char) : Option Nat :=
  if '0' ≤ c ∧ c ≤ '9' then some (c.toNat - '0'.toNat)
  else if 'a' ≤ c ∧ c ≤ 'f' then some (c.toNat - 'a'.toNat + 10)
  else if 'A' ≤ c ∧ c ≤ 'F' then some (c.toNat - 'A'.toNat + 10)
  else none

/-- The longest run of digits of a base from the start of a text, as their values (R65). -/
def digitRun (base : Nat) : List Char → List Nat
  | [] => []
  | c :: rest =>
    match digitValue c with
    | some d => if d < base then d :: digitRun base rest else []
    | none => []

/-- The number a list of digits writes in a base, most significant first. -/
def digitsValue (base : Nat) (ds : List Nat) : Nat := ds.foldl (fun v d => v * base + d) 0

/-- The numeric parse (R65): zero digits fail; characters after the run are ignored (D23); a value above `MAX` fails
(D22). `token` is what an error reports. -/
def parseNumber (base : Nat) (text token : List Char) : Except ResolveError Word :=
  match digitRun base text with
  | [] => .error (.malformed token)
  | d :: ds =>
    if digitsValue base (d :: ds) < 2 ^ 64 then .ok (BitVec.ofNat 64 (digitsValue base (d :: ds)))
    else .error (.tooLarge token)

/-- Label lookup (R63): the lowest address whose entry is exactly `token`; the table rises by address. -/
def lookupLabel (labels : LabelTable) (token : List Char) : Option Nat :=
  (labels.find? fun entry => entry.2 == token).map Prod.fst

/-- Case 5 of R62: a label, and if none matches, a bare number (R63, R64), decimal by default (D20). -/
def resolveBare (p : Toolchain) (labels : LabelTable) (token : List Char) : Except ResolveError Word :=
  match lookupLabel labels token with
  | some a => .ok (BitVec.ofNat 64 a)
  | none => parseNumber p.bareBase token token

/-- The resolver (R61, R62): the first character selects, tested in this order. -/
def resolve (p : Toolchain) (labels : LabelTable) (token : List Char) : Except ResolveError Word :=
  match token with
  | [] => resolveBare p labels token
  | c :: rest =>
    if c = '#' then parseNumber 10 rest token
    else if c = p.bin then parseNumber 2 rest token
    else if c = p.hex then parseNumber 16 rest token
    else if c = p.oct then parseNumber 8 rest token
    else resolveBare p labels token

end Sys2Proof.Machine
end

