-- ==== Sys2Proof/Machine/Load.lean ====
section
/-! DEFINITION. The load input (R22 (g), R56, R142): how a program comes to stand in memory before a run, from an image
of words and labels, or from a source whose operand tokens the resolver turns into words (R66, R144); and the placing of
one instruction where the next step fetches. No step of the machine calls any of it. -/

namespace Sys2Proof.Machine

/-- A program image (R56): words at addresses, and the label table. -/
structure Image where
  words : List (Nat × Word)
  labels : LabelTable
deriving DecidableEq, Repr

/-- One item of a source program, at a word address: an instruction with its operand token (R58), or a data word (R60).
Where the operand use is `ignored` R58 omits the token, so a source of R58 has the empty one there. -/
inductive SourceItem where
  | pair (addr : Nat) (name : OpName) (token : List Char)
  | data (addr : Nat) (word : Word)
deriving DecidableEq, Repr

/-- Why a load is aborted as a whole (R129, R144). -/
inductive LoadError where
  /-- a fatal resolver error, with its token (R66) -/
  | unresolved (e : ResolveError)
  /-- two labels have one name, where the toolchain refuses that (I2) -/
  | duplicateLabels
  /-- the image names an address outside memory, or its labels are no label table (R24, R27; DESIGN CHOICE: log entry 11) -/
  | badImage
deriving DecidableEq, Repr

/-- The image fits a memory of `n` words: every address is below `n` and the labels are a label table (R24, R27). -/
def Image.wf (n : Nat) (img : Image) : Bool :=
  img.words.all (fun w => decide (w.1 < n)) && img.labels.wf n

/-- The operand word of a source item (R57, R61): the resolved token, and 0 where the opcode ignores it. A token that
stands there although R58 omits it is dropped unresolved, malformed or not. DESIGN CHOICE: log entry 23. -/
def assembleOperand (p : Toolchain) (labels : LabelTable) (n : OpName) (token : List Char) : Except ResolveError Word :=
  if n.operandUse = .ignored then .ok 0 else resolve p labels token

/-- The words of a source item (R48): the opcode word at its address, then the operand word; or the one data word. -/
def assembleItem (opcode : OpcodeMap) (p : Toolchain) (labels : LabelTable) :
    SourceItem → Except ResolveError (List (Nat × Word))
  | .data a w => .ok [(a, w)]
  | .pair a n token =>
    match assembleOperand p labels n token with
    | .ok w => .ok [(a, opcode.of n), (a + 1, w)]
    | .error e => .error e

/-- The words of a whole source: the first failure is fatal to all of it (R66). -/
def assemble (opcode : OpcodeMap) (p : Toolchain) (labels : LabelTable) :
    List SourceItem → Except ResolveError (List (Nat × Word))
  | [] => .ok []
  | item :: rest =>
    match assembleItem opcode p labels item with
    | .error e => .error e
    | .ok ws =>
      match assemble opcode p labels rest with
      | .error e => .error e
      | .ok more => .ok (ws ++ more)

/-- Whether the toolchain refuses the label names (R63, D24, I2). -/
def refusesLabels (p : Toolchain) (labels : LabelTable) : Bool :=
  match p.duplicates with
  | .lowestAddress => false
  | .refuse => !decide (labels.map Prod.snd).Nodup

/-- Write words into a memory, in order. -/
def writeWords (m : Memory) (ws : List (Nat × Word)) : Memory := ws.foldl (fun m w => m.write w.1 w.2) m

/-- The state at the start of a run (R142): the reset state with the image in `M` and `L` and the host's input. -/
def State.load (q : Params) (img : Image) (input : List Byte) : Except LoadError State :=
  if img.wf q.memWords then
    .ok { State.resetWith q input with
          mem := writeWords (State.resetWith q input).mem img.words, labels := img.labels }
  else .error .badImage

/-- The start of a run from a source (R66, R142, R144): no partial program is loaded. -/
def loadSource (q : Params) (p : Toolchain) (labels : LabelTable) (src : List SourceItem) (input : List Byte) :
    Except LoadError State :=
  match assemble q.opcode p labels src with
  | .error e => .error (.unresolved e)
  | .ok ws =>
    if refusesLabels p labels then .error .duplicateLabels
    else State.load q { words := ws, labels := labels } input

/-- The byte the host is taken to supply when a placed char-in would wait for one (log entry 8). -/
def placedByte : Byte := 0

/-- Where an instruction is placed: at `PC`; where no pair can be fetched there (R70, R71), at `ENTRY`; and where none can
be fetched there either, at 0. -/
def placePc (s : State) : Word :=
  if s.pc.toNat + 1 < s.params.memWords then s.pc
  else if s.params.entry.toNat + 1 < s.params.memWords then s.params.entry
  else 0

/-- The input of a placed instruction: an empty `in` is given one byte before a char-in that would wait for one, whose
step "(fetch and `PC` advance included) happens only when the byte arrives" (R117). -/
def placeInput (s : State) (op : Word) : List Byte :=
  if s.input = [] ∧ s.params.eofPolicy = .hold ∧ op = s.params.opcode.charIn then [placedByte] else s.input

/-- `s` made ready to run the pair `(op, opd)` in its very next step: the pair stands at `PC`, and where the fetch could
not happen there at all, what prevents it is set right, a status other than `Running` (R68) included. -/
def placeInstruction (s : State) (op opd : Word) : State :=
  { s with
    pc := placePc s
    status := .running
    input := placeInput s op
    mem := (s.mem.write (placePc s).toNat op).write ((placePc s).toNat + 1) opd }

end Sys2Proof.Machine
end

