-- ==== Sys2Proof/Machine/Step.lean ====
section
/-! DEFINITION. One step (R69) and the placing of one instruction where the next step fetches. Both only call
operations of the files under Machine/. -/

namespace Sys2Proof.Machine

/-- One step (R69): only when `Running` (R68); the two range checks (R70, R71); fetch (R72); advance (R73); decode
(R74); execute (R75) or report the unknown opcode (R76). -/
def step (s : State) : Host.Outcome State Fault Refusal :=
  match s.stopped with
  | some f => .fault f
  | none =>
    match s.fetchCheck with
    | some r => raise r s
    | none =>
      match s.decode s.fetchOp s.fetchOperand with
      | .instr i => exec i s.advance
      | .unknown op => skipUnknown op s

/-- `s` with the instruction of the table's word `w` where the next step fetches (log entry 8). -/
def State.withFetchWord (s : State) (nbits w : Nat) : State :=
  placeInstruction s (tableWords nbits w).1 (tableWords nbits w).2

end Sys2Proof.Machine
end

