-- ==== Sys2Proof/Safety.lean ====
section
/-! DEFINITION. The terms the claims use: what a state is about to execute, how two answers of the machine are
compared, the invariant every step keeps, and which ends of a run are clean. -/

namespace Sys2Proof.Machine

/-- The next state of an answer, if it has one. -/
def nextOf : StepResult → Option State
  | .next s => some s
  | .fault _ => none
  | .refused _ => none

/-- The fault of an answer, if it is one. -/
def faultOf : StepResult → Option Fault
  | .next _ => none
  | .fault f => some f
  | .refused _ => none

/-- A run of `k` steps, ending early where a step answers no next state (R78). -/
def runSteps : Nat → State → StepResult
  | 0, s => .next s
  | k + 1, s =>
    match step s with
    | .next t => runSteps k t
    | .fault f => .fault f
    | .refused r => .refused r

/-- The next step of `s` fetches the pair `(op, opd)`: the core is `Running`, both words lie in memory, and they are
what memory holds at `PC` and `PC + 1` (R68, R70 to R72). -/
abbrev Fetches (s : State) (op opd : Word) : Prop :=
  s.status = .running ∧ s.pc.toNat + 1 < s.params.memWords ∧
    s.mem.read s.pc.toNat = op ∧ s.mem.read (s.pc.toNat + 1) = opd

/-- The next step of `s` fetches the instruction `n` with the operand word `opd`, under the machine's own OPCODE. -/
abbrev FetchesInstr (s : State) (n : OpName) (opd : Word) : Prop := Fetches s (s.params.opcode.of n) opd

/-- The next step of `s` executes one of the instructions named in `names`. -/
def AboutToExecute (s : State) (names : List OpName) : Prop :=
  ∃ n ∈ names, ∃ opd, FetchesInstr s n opd

/-- `pc` is an advanced `PC`: `a0 + 2` for an address `a0` a pair can be fetched from (R16, R73). -/
def AdvancedPc (memWords : Nat) (pc : Word) : Prop :=
  ∃ a0 : Word, a0.toNat + 1 < memWords ∧ pc = a0 + 2

/-- Two answers that stop alike, or go on to states related by `R`. -/
def AgreeOn (R : State → State → Prop) : StepResult → StepResult → Prop
  | .next t, .next u => R t u
  | .fault f, .fault g => f = g
  | .refused f, .refused g => f = g
  | _, _ => False

/-- An answer with its next state changed by `f`. -/
def mapNext (f : State → State) : StepResult → StepResult
  | .next s => .next (f s)
  | .fault r => .fault r
  | .refused r => .refused r

/-- What a terminal status says of `PC` and of the recorded address (R120, R125 to R127); `Refused` never occurs (R18). -/
def State.StatusRecord (s : State) : Prop :=
  match s.status with
  | .running => True
  | .halted => AdvancedPc s.params.memWords s.pc
  | .faulted .pcOutOfRange => s.params.memWords ≤ s.pc.toNat
  | .faulted .operandFetchOutOfRange => s.pc.toNat + 1 = s.params.memWords
  | .faulted (.dataAddressOutOfRange a) => s.params.memWords ≤ a.toNat ∧ AdvancedPc s.params.memWords s.pc
  | .refused => False

/-- The invariant of the machine. -/
structure State.Inv (s : State) : Prop where
  /-- the parameters meet their constraints (R5, R52) -/
  paramsOk : s.params.ok = true
  /-- memory is in its canonical form, with no word outside it (R27) -/
  memWf : s.mem.wf s.params.memWords = true
  /-- the label table has at most one name per address, all in range (R24) -/
  labelsWf : s.labels.wf s.params.memWords = true
  /-- every report names an opcode outside the defined set, fetched from a pair inside memory (R76, R128) -/
  reports : ∀ r ∈ s.diag, r.addr.toNat + 1 < s.params.memWords ∧ ∀ n : OpName, s.params.opcode.of n ≠ r.opcode
  /-- every snapshot holds a memory in its form, the label table, and an advanced `PC` (R121, R122) -/
  snapshots : ∀ d ∈ s.dbg, d.mem.wf s.params.memWords = true ∧ d.labels = s.labels ∧ AdvancedPc s.params.memWords d.pc
  /-- a terminal status agrees with `PC` and with the address it records -/
  record : s.StatusRecord

/-- The character that writes a digit: 0 to 9, then a letter of either case from 10 on (R65; log entry 10). -/
def digitChar (upper : Bool) (d : Nat) : Char :=
  if d < 10 then Char.ofNat ('0'.toNat + d) else Char.ofNat ((if upper then 'A' else 'a').toNat + (d - 10))

/-- The characters that write a number, each digit with the case of its letter (log entry 10). -/
def digitChars (ds : List (Nat × Bool)) : List Char := ds.map fun d => digitChar d.2 d.1

/-- A text whose first character, if any, is no digit of the base. -/
def StartsWithNoDigit (base : Nat) (text : List Char) : Prop :=
  ∀ c, text.head? = some c → ∀ d, d < base → ∀ upper, c ≠ digitChar upper d

/-- What a literal of value `value` resolves to: a value above 2^64 - 1 fails (R65, D22). -/
def literalAnswer (value : Nat) (token : List Char) : Except ResolveError Word :=
  if value < 2 ^ 64 then .ok (BitVec.ofNat 64 value) else .error (.tooLarge token)

/-- The ends of a run that R130 calls clean: `Halted`, and `PC` having left memory. -/
def Status.cleanEnd : Status → Bool
  | .halted => true
  | .faulted .pcOutOfRange => true
  | _ => false

/-- A state no step of which is an error: still running, or at a clean end. -/
def State.safe (s : State) : Bool := s.status == .running || s.status.cleanEnd

end Sys2Proof.Machine
end

