-- ==== Sys2Proof/Certificates/Slice0/Obligations.lean ====
section
/-! DEFINITION. The statements for the provers. In a statement about `exec`, `PC` already holds `a0 + 2` (R73); a
statement about `step` starts from the state before the fetch. An equation `exec i s = .next { s with … }` is the whole
frame too: every register, the flag, every word of memory, the label table, the status and every stream not named in it
is as before, the parameters of the machine (R5) too. A statement about every state is about every choice of those
parameters, since `State.params` holds them (log entry 24); where it needs their constraints it says `params.ok`. -/

open Sys2Proof Sys2Proof.Machine

/-! ### The cycle -/

/-- R72, R73, R75: the pair at `PC` that decodes to a well-formed instruction is what the step executes, from the state
with `PC` advanced by 2; and the advance does not wrap, unless N = 2^64 (log entry 5). -/
def Obligations.StepRunsTheDecodedInstruction : Prop :=
  ∀ (s : State) (op opd : Word) (i : Instr), Fetches s op opd → s.decode op opd = .instr i → i.wf = true →
    step s = exec i { s with pc := s.pc + 2 } ∧
      (s.params.memWords < 2 ^ 64 → (s.pc + 2).toNat = s.pc.toNat + 2)

/-- R76: an opcode outside the defined set is reported as `(a0, op)` (the spec's own choice, D12) and skipped; nothing
else changes. -/
def Obligations.UnknownOpcodeIsReportedAndSkipped : Prop :=
  ∀ (s : State) (op opd : Word), Fetches s op opd → (∀ n : OpName, s.params.opcode.of n ≠ op) →
    step s = .next { s with pc := s.pc + 2, diag := s.diag ++ [{ addr := s.pc, opcode := op }] }

/-- R70: a `PC` outside memory ends the run as `Faulted(PcOutOfRange)`, and nothing else changes. -/
def Obligations.PcOutOfRangeEndsTheRun : Prop :=
  ∀ s : State, s.status = .running → s.params.memWords ≤ s.pc.toNat →
    step s = .next { s with status := .faulted .pcOutOfRange }

/-- R71 (the spec's own choice, D5): `PC = N - 1` ends the run as `Faulted(OperandFetchOutOfRange)`, and nothing else
changes. -/
def Obligations.OperandFetchOutOfRangeEndsTheRun : Prop :=
  ∀ s : State, s.status = .running → s.pc.toNat + 1 = s.params.memWords →
    step s = .next { s with status := .faulted .operandFetchOutOfRange }

/-- R68 (absorption is the spec's own choice, D14): a core that is not `Running` takes no step, and no longer run from it
does either; the model answers the fault that names the status (log entry 7). -/
def Obligations.OnlyARunningCoreTakesAStep : Prop :=
  ∀ (s : State) (k : Nat),
    (s.status = .halted → runSteps (k + 1) s = .fault .halted) ∧
    (∀ r, s.status = .faulted r → runSteps (k + 1) s = .fault (.faulted r)) ∧
    (s.status = .refused → runSteps (k + 1) s = .fault .refusedStatus)

/-- R69, R116, R150: a running core always takes a step, except where a char-in finds `in` empty; "nothing else in the
core waits". It waits only where EOF_POLICY = hold, the default (D10). -/
def Obligations.RunningCoreStepsUnlessItWaitsForInput : Prop :=
  ∀ s : State, s.status = .running →
    (∃ t, step s = .next t) ∨
    (AboutToExecute s [.charIn] ∧ s.input = [] ∧ s.params.eofPolicy = .hold ∧ step s = .fault .waitingForInput)

/-! ### Encoding -/

/-- R48 to R53: under every injective OPCODE map, and the default is one, decoding inverts encoding, encoding inverts
decoding, and exactly the words outside the defined set are unknown; and every map can be the machine's OPCODE, under
which the machine decodes by it. -/
def Obligations.DecodeInvertsEncodeUnderEveryOpcodeMap : Prop :=
  (∀ opcode : OpName → Word, Function.Injective opcode →
    (∀ i : Instr, i.wf = true → decodeWith opcode (encodeWith opcode i).1 (encodeWith opcode i).2 = .instr i) ∧
    (∀ (op opd : Word) (i : Instr), decodeWith opcode op opd = .instr i → encodeWith opcode i = (op, opd)) ∧
    (∀ op opd op' : Word, decodeWith opcode op opd = .unknown op' ↔ op' = op ∧ ∀ n, opcode n ≠ op)) ∧
  Function.Injective OpName.opcode ∧
  (∀ (opcode : OpName → Word) (s : State) (op opd : Word), s.params.opcode = OpcodeMap.ofFun opcode →
    s.decode op opd = decodeWith opcode op opd) ∧
  (∀ (i : Instr) (rest : List Word), i.wf = true →
    decodeWords ((encode i).1 :: (encode i).2 :: rest) = .ok (i, rest))

/-- R51 with the default OPCODE (the spec's own choice, D1): the 33 rows of the opcode table, word by word. -/
def Obligations.OpcodeTableWordsDecode : Prop :=
  ∀ opd : Word,
    decode 0x01 opd = .instr (.loadImmediate opd) ∧ decode 0x02 opd = .instr (.loadDirect opd) ∧
    decode 0x03 opd = .instr (.loadIndirect opd) ∧ decode 0x04 opd = .instr (.loadIndexed opd) ∧
    decode 0x05 opd = .instr (.loadIndexImmediate opd) ∧ decode 0x06 opd = .instr (.moveAccToIndex opd) ∧
    decode 0x07 opd = .instr (.store opd) ∧ decode 0x08 opd = .instr (.addImm opd) ∧
    decode 0x09 opd = .instr (.addMem opd) ∧ decode 0x0A opd = .instr (.subImm opd) ∧
    decode 0x0B opd = .instr (.subMem opd) ∧ decode 0x0C opd = .instr (.incAcc opd) ∧
    decode 0x0D opd = .instr (.incIndex opd) ∧ decode 0x0E opd = .instr (.decAcc opd) ∧
    decode 0x0F opd = .instr (.decIndex opd) ∧ decode 0x10 opd = .instr (.compareMem opd) ∧
    decode 0x11 opd = .instr (.compareImm opd) ∧ decode 0x12 opd = .instr (.compareIndirect opd) ∧
    decode 0x13 opd = .instr (.jump opd) ∧ decode 0x14 opd = .instr (.jumpIfEqual opd) ∧
    decode 0x15 opd = .instr (.jumpIfNotEqual opd) ∧ decode 0x16 opd = .instr (.andImm opd) ∧
    decode 0x17 opd = .instr (.andMem opd) ∧ decode 0x18 opd = .instr (.xorImm opd) ∧
    decode 0x19 opd = .instr (.xorMem opd) ∧ decode 0x1A opd = .instr (.orImm opd) ∧
    decode 0x1B opd = .instr (.orMem opd) ∧ decode 0x1C opd = .instr (.shiftLeft opd) ∧
    decode 0x1D opd = .instr (.shiftRight opd) ∧ decode 0x1E opd = .instr (.charIn opd) ∧
    decode 0x1F opd = .instr (.charOut opd) ∧ decode 0x20 opd = .instr (.halt opd) ∧
    decode 0x21 opd = .instr (.inspect opd)

/-- R74, under any OPCODE map: the opcode word alone selects, and every operand word is accepted by every opcode. -/
def Obligations.OpcodeWordAloneSelects : Prop :=
  ∀ (opcode : OpName → Word) (op a b : Word),
    (∃ n, opcode n = op ∧ decodeWith opcode op a = .instr (Instr.ofName n a) ∧
      decodeWith opcode op b = .instr (Instr.ofName n b)) ∨
    ((∀ n, opcode n ≠ op) ∧ decodeWith opcode op a = .unknown op ∧ decodeWith opcode op b = .unknown op)

/-- R57: where the operand use is `ignored`, the value of the operand word has no effect on execution. -/
def Obligations.IgnoredOperandWordHasNoEffect : Prop :=
  ∀ (n : OpName) (a b : Word) (s : State), n.operandUse = .ignored →
    exec (Instr.ofName n a) s = exec (Instr.ofName n b) s

/-! ### Load, transfer, store -/

/-- R81, R85, R86: the two immediate loads and the transfer complete in every state and write one register. -/
def Obligations.ImmediateLoadsAndTransferWriteOneRegister : Prop :=
  ∀ (opd : Word) (s : State),
    exec (.loadImmediate opd) s = .next { s with acc := opd } ∧
    exec (.loadIndexImmediate opd) s = .next { s with ix := opd } ∧
    exec (.moveAccToIndex opd) s = .next { s with ix := s.acc }

/-- R82, with the range fault of R28 (the spec's own choice, D6). -/
def Obligations.LoadDirectLoadsTheAddressedWord : Prop :=
  ∀ (opd : Word) (s : State),
    (opd.toNat < s.params.memWords → exec (.loadDirect opd) s = .next { s with acc := s.mem.read opd.toNat }) ∧
    (s.params.memWords ≤ opd.toNat →
      exec (.loadDirect opd) s = .next { s with status := .faulted (.dataAddressOutOfRange opd) })

/-- R83 and R132: the pointer is checked first, then the address it holds; faults as R28 (D6). -/
def Obligations.LoadIndirectFollowsThePointer : Prop :=
  ∀ (opd : Word) (s : State),
    (opd.toNat < s.params.memWords → (s.mem.read opd.toNat).toNat < s.params.memWords →
      exec (.loadIndirect opd) s = .next { s with acc := s.mem.read (s.mem.read opd.toNat).toNat }) ∧
    (opd.toNat < s.params.memWords → s.params.memWords ≤ (s.mem.read opd.toNat).toNat →
      exec (.loadIndirect opd) s =
        .next { s with status := .faulted (.dataAddressOutOfRange (s.mem.read opd.toNat)) }) ∧
    (s.params.memWords ≤ opd.toNat →
      exec (.loadIndirect opd) s = .next { s with status := .faulted (.dataAddressOutOfRange opd) })

/-- R84: the address is the sum modulo 2^64 (the spec's own choice, D7), checked after it wraps; `IX` is unchanged. -/
def Obligations.LoadIndexedAddsTheIndexModulo : Prop :=
  ∀ (opd : Word) (s : State),
    ((opd.toNat + s.ix.toNat) % 2 ^ 64 < s.params.memWords →
      exec (.loadIndexed opd) s = .next { s with acc := s.mem.read ((opd.toNat + s.ix.toNat) % 2 ^ 64) }) ∧
    (s.params.memWords ≤ (opd.toNat + s.ix.toNat) % 2 ^ 64 →
      exec (.loadIndexed opd) s =
        .next { s with status := .faulted (.dataAddressOutOfRange (BitVec.ofNat 64 (opd.toNat + s.ix.toNat))) })

/-- R87, R30: store replaces the word at its operand address and nothing else: every other word reads as before, no
register changes, and in a memory of canonical form the stored word reads back and the form is kept. Out of range it
ends the run with memory unchanged (R28, the spec's own choice D6). -/
def Obligations.StoreWritesExactlyTheAddressedWord : Prop :=
  ∀ (opd : Word) (s : State),
    (opd.toNat < s.params.memWords → ∃ t, exec (.store opd) s = .next t ∧ t = { s with mem := t.mem } ∧
      (∀ b, b ≠ (directAddress opd).toNat → t.mem.read b = s.mem.read b) ∧
      (s.mem.wf s.params.memWords = true →
        t.mem.read (directAddress opd).toNat = s.acc ∧ t.mem.wf s.params.memWords = true)) ∧
    (s.params.memWords ≤ opd.toNat →
      exec (.store opd) s = .next { s with status := .faulted (.dataAddressOutOfRange opd) })

/-- R88: what store wrote at `a` is what direct, indirect and indexed loads of `a` give, in any state `u` in which no
later store has changed the word at `a`. The premise on memory is kept by every step (StepKeepsTheInvariant). -/
def Obligations.StoredWordIsSeenByEveryLoadForm : Prop :=
  ∀ (s t u : State) (a : Word), s.mem.wf s.params.memWords = true → a.toNat < s.params.memWords →
    exec (.store a) s = .next t → u.params.memWords = s.params.memWords → u.mem.read a.toNat = t.mem.read a.toNat →
    exec (.loadDirect a) u = .next { u with acc := s.acc } ∧
    (∀ q : Word, q.toNat < s.params.memWords → u.mem.read q.toNat = a →
      exec (.loadIndirect q) u = .next { u with acc := s.acc }) ∧
    (∀ b : Word, b + u.ix = a → exec (.loadIndexed b) u = .next { u with acc := s.acc })

/-- R147, R148: a store anywhere in memory, its own two words included, does not disturb the instruction being executed,
and the very next fetch sees it. -/
def Obligations.StoreIsSeenByTheNextFetch : Prop :=
  ∀ (s : State) (opd : Word), s.params.ok = true → s.mem.wf s.params.memWords = true → FetchesInstr s .store opd →
    opd.toNat < s.params.memWords → ∃ t, step s = .next t ∧ t = { s with pc := s.pc + 2, mem := t.mem } ∧
      (∀ b, t.mem.read b = if b = opd.toNat then s.acc else s.mem.read b) ∧
      (s.pc.toNat + 3 < s.params.memWords →
        Fetches t (if opd.toNat = s.pc.toNat + 2 then s.acc else s.mem.read (s.pc.toNat + 2))
          (if opd.toNat = s.pc.toNat + 3 then s.acc else s.mem.read (s.pc.toNat + 3)))

/-! ### Arithmetic -/

/-- R89, R90, R97: the mathematical sum modulo 2^64, no flag; range fault as R28 (D6). -/
def Obligations.AddsWrapModulo : Prop :=
  ∀ (opd : Word) (s : State),
    exec (.addImm opd) s = .next { s with acc := BitVec.ofNat 64 (s.acc.toNat + opd.toNat) } ∧
    (opd.toNat < s.params.memWords →
      exec (.addMem opd) s =
        .next { s with acc := BitVec.ofNat 64 (s.acc.toNat + (s.mem.read opd.toNat).toNat) }) ∧
    (s.params.memWords ≤ opd.toNat →
      exec (.addMem opd) s = .next { s with status := .faulted (.dataAddressOutOfRange opd) })

/-- R91, R92, R97: the mathematical difference modulo 2^64, no borrow recorded; range fault as R28 (D6). -/
def Obligations.SubtractsWrapModulo : Prop :=
  ∀ (opd : Word) (s : State),
    exec (.subImm opd) s = .next { s with acc := BitVec.ofInt 64 ((s.acc.toNat : Int) - opd.toNat) } ∧
    (opd.toNat < s.params.memWords →
      exec (.subMem opd) s =
        .next { s with acc := BitVec.ofInt 64 ((s.acc.toNat : Int) - (s.mem.read opd.toNat).toNat) }) ∧
    (s.params.memWords ≤ opd.toNat →
      exec (.subMem opd) s = .next { s with status := .faulted (.dataAddressOutOfRange opd) })

/-- R93 to R96: increments and decrements of `ACC` and `IX`; at the maximum and at 0 they wrap. -/
def Obligations.IncrementsAndDecrementsWrap : Prop :=
  ∀ (opd : Word) (s : State),
    exec (.incAcc opd) s = .next { s with acc := if s.acc = Word.max then 0 else BitVec.ofNat 64 (s.acc.toNat + 1) } ∧
    exec (.incIndex opd) s = .next { s with ix := if s.ix = Word.max then 0 else BitVec.ofNat 64 (s.ix.toNat + 1) } ∧
    exec (.decAcc opd) s = .next { s with acc := if s.acc = 0 then Word.max else BitVec.ofNat 64 (s.acc.toNat - 1) } ∧
    exec (.decIndex opd) s = .next { s with ix := if s.ix = 0 then Word.max else BitVec.ofNat 64 (s.ix.toNat - 1) }

/-! ### Compare and branch -/

/-- R98, R99: `FLAG` is 1 when all 64 bits are equal and 0 otherwise, and nothing else changes; range fault as R28. -/
def Obligations.CompareDirectAndImmediateWriteEquality : Prop :=
  ∀ (opd : Word) (s : State),
    exec (.compareImm opd) s = .next { s with flag := if s.acc.toNat = opd.toNat then 1 else 0 } ∧
    (opd.toNat < s.params.memWords →
      exec (.compareMem opd) s =
        .next { s with flag := if s.acc.toNat = (s.mem.read opd.toNat).toNat then 1 else 0 }) ∧
    (s.params.memWords ≤ opd.toNat →
      exec (.compareMem opd) s = .next { s with status := .faulted (.dataAddressOutOfRange opd) })

/-- R100, R132: the compared word is `M[M[opd]]`; the pointer is checked first; on a fault `FLAG` is unchanged. -/
def Obligations.CompareIndirectWritesEquality : Prop :=
  ∀ (opd : Word) (s : State),
    (opd.toNat < s.params.memWords → (s.mem.read opd.toNat).toNat < s.params.memWords →
      exec (.compareIndirect opd) s =
        .next { s with flag := if s.acc.toNat = (s.mem.read (s.mem.read opd.toNat).toNat).toNat then 1 else 0 }) ∧
    (opd.toNat < s.params.memWords → s.params.memWords ≤ (s.mem.read opd.toNat).toNat →
      exec (.compareIndirect opd) s =
        .next { s with status := .faulted (.dataAddressOutOfRange (s.mem.read opd.toNat)) }) ∧
    (s.params.memWords ≤ opd.toNat →
      exec (.compareIndirect opd) s = .next { s with status := .faulted (.dataAddressOutOfRange opd) })

/-- R101: the condition is a function of `FLAG` alone; taken, `PC` is the operand word; not taken, `PC` keeps the
advanced value it has in `s`. Every branch completes, since `FLAG` is 0 or 1. -/
def Obligations.BranchesFollowTheFlagAlone : Prop :=
  ∀ (opd : Word) (s : State),
    (s.flag = 0 ∨ s.flag = 1) ∧
    exec (.jump opd) s = .next { s with pc := opd } ∧
    (s.flag = 1 → exec (.jumpIfEqual opd) s = .next { s with pc := opd }) ∧
    (s.flag = 0 → exec (.jumpIfEqual opd) s = .next s) ∧
    (s.flag = 0 → exec (.jumpIfNotEqual opd) s = .next { s with pc := opd }) ∧
    (s.flag = 1 → exec (.jumpIfNotEqual opd) s = .next s)

/-- R105 and Scenario D: a jump target is any word; it is not checked by the jump but by the next step, which fetches the
pair there, odd or even, or ends the run (at `N - 1` by the spec's own choice, D5). -/
def Obligations.JumpTargetIsCheckedByTheNextFetch : Prop :=
  ∀ (s : State) (opd : Word), s.params.ok = true → FetchesInstr s .jump opd →
    ∃ t, step s = .next t ∧ t = { s with pc := opd } ∧
      (opd.toNat + 1 < s.params.memWords → Fetches t (s.mem.read opd.toNat) (s.mem.read (opd.toNat + 1))) ∧
      (opd.toNat + 1 = s.params.memWords → step t = .next { t with status := .faulted .operandFetchOutOfRange }) ∧
      (s.params.memWords ≤ opd.toNat → step t = .next { t with status := .faulted .pcOutOfRange })

/-- R106: any sequence of steps that executes no compare leaves `FLAG` unchanged (unknown opcodes and faults included).
For every instruction but the two conditional jumps and inspect, another `FLAG` gives the same answer but for `FLAG`
itself; for inspect, which R21 and R121 let read it, only the new snapshot's `FLAG` field differs too: that R106 does not
count this reading is the model's deduction (log entry 16). And an unknown opcode changes nothing but `PC` and `diag`. -/
def Obligations.FlagIsolation : Prop :=
  (∀ (k : Nat) (s t : State), runSteps k s = .next t →
    (∀ (j : Nat) (u : State), j < k → runSteps j s = .next u →
      ¬ AboutToExecute u [.compareMem, .compareImm, .compareIndirect]) →
    t.flag = s.flag) ∧
  (∀ (i : Instr) (s : State) (f : Flag), i.name ∉ [.jumpIfEqual, .jumpIfNotEqual, .inspect] →
    AgreeOn (fun t u => t = { u with flag := t.flag }) (exec i s) (exec i { s with flag := f })) ∧
  (∀ (opd : Word) (s : State) (f : Flag), ∃ snapshot : Snapshot,
    exec (.inspect opd) s = .next { s with dbg := s.dbg ++ [snapshot] } ∧
    exec (.inspect opd) { s with flag := f } =
      .next { s with flag := f, dbg := s.dbg ++ [{ snapshot with flag := f }] }) ∧
  (∀ (s : State) (op opd : Word), Fetches s op opd → (∀ n : OpName, s.params.opcode.of n ≠ op) →
    ∃ t, step s = .next t ∧ t = { s with pc := t.pc, diag := t.diag })

/-! ### Bitwise and shift -/

/-- R108, R110, R112: bit by bit; the instruction completes in every state and writes `ACC` only. -/
def Obligations.BitwiseImmediateFormsActBitByBit : Prop :=
  ∀ (opd : Word) (s : State),
    (∃ v, exec (.andImm opd) s = .next { s with acc := v } ∧
      ∀ k, v.getLsbD k = (s.acc.getLsbD k && opd.getLsbD k)) ∧
    (∃ v, exec (.xorImm opd) s = .next { s with acc := v } ∧
      ∀ k, v.getLsbD k = (s.acc.getLsbD k ^^ opd.getLsbD k)) ∧
    (∃ v, exec (.orImm opd) s = .next { s with acc := v } ∧
      ∀ k, v.getLsbD k = (s.acc.getLsbD k || opd.getLsbD k))

/-- R109, R111, R113: bit by bit with the addressed word; range fault as R28 (D6). -/
def Obligations.BitwiseMemoryFormsActBitByBit : Prop :=
  ∀ (opd : Word) (s : State),
    (opd.toNat < s.params.memWords →
      (∃ v, exec (.andMem opd) s = .next { s with acc := v } ∧
        ∀ k, v.getLsbD k = (s.acc.getLsbD k && (s.mem.read opd.toNat).getLsbD k)) ∧
      (∃ v, exec (.xorMem opd) s = .next { s with acc := v } ∧
        ∀ k, v.getLsbD k = (s.acc.getLsbD k ^^ (s.mem.read opd.toNat).getLsbD k)) ∧
      (∃ v, exec (.orMem opd) s = .next { s with acc := v } ∧
        ∀ k, v.getLsbD k = (s.acc.getLsbD k || (s.mem.read opd.toNat).getLsbD k))) ∧
    (s.params.memWords ≤ opd.toNat →
      exec (.andMem opd) s = .next { s with status := .faulted (.dataAddressOutOfRange opd) } ∧
      exec (.xorMem opd) s = .next { s with status := .faulted (.dataAddressOutOfRange opd) } ∧
      exec (.orMem opd) s = .next { s with status := .faulted (.dataAddressOutOfRange opd) })

/-- R114, R115: below 64 the product by and the quotient by 2^s; the amount is not masked. From 64 on SHIFT_OVERSIZE
decides (the spec's own choice D8; log entry 2): the result is 0 under `zero`, the default, and under `anyValue` a free
value, of which this says nothing but that it is the next one drawn (log entry 9). -/
def Obligations.ShiftsMultiplyAndDivideByPowersOfTwo : Prop :=
  ∀ (opd : Word) (s : State),
    (opd.toNat < 64 →
      exec (.shiftLeft opd) s = .next { s with acc := BitVec.ofNat 64 (s.acc.toNat * 2 ^ opd.toNat) } ∧
      exec (.shiftRight opd) s = .next { s with acc := BitVec.ofNat 64 (s.acc.toNat / 2 ^ opd.toNat) }) ∧
    (64 ≤ opd.toNat → s.params.shiftOversize = .zero →
      exec (.shiftLeft opd) s = .next { s with acc := 0 } ∧ exec (.shiftRight opd) s = .next { s with acc := 0 }) ∧
    (64 ≤ opd.toNat → s.params.shiftOversize = .anyValue →
      exec (.shiftLeft opd) s = .next { s with acc := Config.freeWord s.draws, draws := s.draws + 1 } ∧
      exec (.shiftRight opd) s = .next { s with acc := Config.freeWord s.draws, draws := s.draws + 1 })

/-! ### I/O, control, debug -/

/-- R116, R117: char-in takes the byte at the head of `in`, zero-extended (D9). While `in` is empty EOF_POLICY decides
(D10; log entry 3): under `hold`, the default, there is no step, for the instruction or for the step that would fetch it;
under `anyValue` a free value is loaded and the run goes on (I9; log entry 9). -/
def Obligations.CharInTakesOneByteOrNoStep : Prop :=
  ∀ (opd : Word) (s : State),
    (∀ (c : Byte) (rest : List Byte), s.input = c :: rest →
      exec (.charIn opd) s = .next { s with acc := BitVec.ofNat 64 c.toNat, input := rest }) ∧
    (s.input = [] → s.params.eofPolicy = .hold → exec (.charIn opd) s = .fault .waitingForInput ∧
      (s.params.ok = true → FetchesInstr s .charIn opd → step s = .fault .waitingForInput)) ∧
    (s.input = [] → s.params.eofPolicy = .anyValue →
      exec (.charIn opd) s = .next { s with acc := Config.freeWord s.draws, draws := s.draws + 1 })

/-- R118, R119: char-out appends the low byte of `ACC` (bits 7 to 0, D11) and changes nothing else. -/
def Obligations.CharOutAppendsTheLowByte : Prop :=
  ∀ (opd : Word) (s : State),
    exec (.charOut opd) s = .next { s with output := s.output ++ [BitVec.ofNat 8 (s.acc.toNat % 256)] }

/-- R120: halt sets the status and leaves every register; the step leaves `PC` at `a0 + 2`, and no step follows. -/
def Obligations.HaltStopsTheRun : Prop :=
  ∀ (opd : Word) (s : State),
    exec (.halt opd) s = .next { s with status := .halted } ∧
    (s.params.ok = true → FetchesInstr s .halt opd →
      step s = .next { s with pc := s.pc + 2, status := .halted } ∧
      step { s with pc := s.pc + 2, status := .halted } = .fault .halted)

/-- R121, R122: inspect appends a snapshot of the four registers, memory and the label table, with `PC` at `a0 + 2`, and
changes nothing else. -/
def Obligations.InspectHandsOverASnapshot : Prop :=
  ∀ (opd : Word) (s : State),
    exec (.inspect opd) s = .next { s with dbg := s.dbg ++
      [{ acc := s.acc, ix := s.ix, pc := s.pc, flag := s.flag, mem := s.mem, labels := s.labels }] } ∧
    (s.params.ok = true → FetchesInstr s .inspect opd →
      step s = .next { s with pc := s.pc + 2, dbg := s.dbg ++
        [{ acc := s.acc, ix := s.ix, pc := s.pc + 2, flag := s.flag, mem := s.mem, labels := s.labels }] })

/-! ### The whole machine -/

/-- R19: in every step the output streams only grow and the input is consumed from its head, by one element of one
stream at most. -/
def Obligations.StreamsOnlyGrow : Prop :=
  ∀ s t : State, step s = .next t →
    ∃ (c o : List Byte) (d : List Report) (g : List Snapshot),
      s.input = c ++ t.input ∧ t.output = s.output ++ o ∧ t.diag = s.diag ++ d ∧ t.dbg = s.dbg ++ g ∧
      c.length + o.length + d.length + g.length ≤ 1

/-- R19: no step reads `out`, `diag` or `dbg`: with more history before them the step is the same. -/
def Obligations.OutputStreamsAreNeverRead : Prop :=
  ∀ (s : State) (o : List Byte) (d : List Report) (g : List Snapshot),
    step { s with output := o ++ s.output, diag := d ++ s.diag, dbg := g ++ s.dbg } =
      mapNext (fun t => { t with output := o ++ t.output, diag := d ++ t.diag, dbg := g ++ t.dbg }) (step s)

/-- The writes of R21, R31, R47: whatever an instruction changes, it is one of the instructions the register access table
lets change it; only store changes memory, and only the word at its operand address; nothing changes the label table or
the machine's parameters (R13). -/
def Obligations.InstructionsWriteOnlyWhatTheTableSays : Prop :=
  ∀ (i : Instr) (s t : State), exec i s = .next t →
    (t.acc ≠ s.acc → i.name ∈ [.loadImmediate, .loadDirect, .loadIndirect, .loadIndexed, .addImm, .subImm, .addMem,
      .subMem, .incAcc, .decAcc, .andImm, .xorImm, .orImm, .andMem, .xorMem, .orMem, .shiftLeft, .shiftRight, .charIn]) ∧
    (t.ix ≠ s.ix → i.name ∈ [.loadIndexImmediate, .moveAccToIndex, .incIndex, .decIndex]) ∧
    (t.pc ≠ s.pc → i.name ∈ [.jump, .jumpIfEqual, .jumpIfNotEqual] ∧ t.pc = i.operand) ∧
    (t.flag ≠ s.flag → i.name ∈ [.compareImm, .compareMem, .compareIndirect]) ∧
    (∀ a, t.mem.read a ≠ s.mem.read a → ∃ opd, i = .store opd ∧ a = (directAddress opd).toNat) ∧
    t.labels = s.labels ∧
    (t.input ≠ s.input → i.name = .charIn) ∧
    (t.output ≠ s.output → i.name = .charOut) ∧
    t.diag = s.diag ∧
    (t.dbg ≠ s.dbg → i.name = .inspect) ∧
    (t.status ≠ s.status → i.name = .halt ∨
      ∃ a : Word, s.params.memWords ≤ a.toNat ∧ t.status = .faulted (.dataAddressOutOfRange a)) ∧
    t.params = s.params ∧
    (t.draws ≠ s.draws → i.name ∈ [.shiftLeft, .shiftRight, .charIn])

/-- The reads of R21, R31, R79: a piece of state the table lets an instruction not read influences nothing in its answer
but that piece itself: another `ACC`, `IX`, `PC`, `FLAG`, memory, label table or input stream gives the same answer
otherwise. -/
def Obligations.StateNotReadDoesNotMatter : Prop :=
  ∀ (i : Instr) (s : State),
    (i.name ∈ [.loadImmediate, .loadDirect, .loadIndirect, .loadIndexed, .loadIndexImmediate, .incIndex, .decIndex,
        .jump, .jumpIfEqual, .jumpIfNotEqual, .charIn, .halt] →
      ∀ v, AgreeOn (fun t u => t = { u with acc := t.acc }) (exec i s) (exec i { s with acc := v })) ∧
    (i.name ∉ [.loadIndexed, .incIndex, .decIndex, .inspect] →
      ∀ v, AgreeOn (fun t u => t = { u with ix := t.ix }) (exec i s) (exec i { s with ix := v })) ∧
    (i.name ≠ .inspect →
      ∀ v, AgreeOn (fun t u => t = { u with pc := t.pc }) (exec i s) (exec i { s with pc := v })) ∧
    (i.name ∉ [.jumpIfEqual, .jumpIfNotEqual, .inspect] →
      ∀ f, AgreeOn (fun t u => t = { u with flag := t.flag }) (exec i s) (exec i { s with flag := f })) ∧
    (i.name ∉ [.loadDirect, .loadIndirect, .loadIndexed, .addMem, .subMem, .compareMem, .compareIndirect, .andMem,
        .xorMem, .orMem, .inspect] →
      ∀ m, AgreeOn (fun t u => t = { u with mem := t.mem }) (exec i s) (exec i { s with mem := m })) ∧
    (i.name ≠ .inspect →
      ∀ l, AgreeOn (fun t u => t = { u with labels := t.labels }) (exec i s) (exec i { s with labels := l })) ∧
    (i.name ≠ .charIn →
      ∀ b, AgreeOn (fun t u => t = { u with input := t.input }) (exec i s) (exec i { s with input := b }))

/-- R77, R133 (the spec's own choice, D14): a step that ends in a fault changes `status` and nothing else but, for a data
fault, the advance of `PC`; the fault records its cause. -/
def Obligations.FaultingStepIsPrecise : Prop :=
  ∀ (s t : State) (r : FaultReason), step s = .next t → t.status = .faulted r →
    (r = .pcOutOfRange ∧ s.params.memWords ≤ s.pc.toNat ∧ t = { s with status := .faulted r }) ∨
    (r = .operandFetchOutOfRange ∧ s.pc.toNat + 1 = s.params.memWords ∧ t = { s with status := .faulted r }) ∨
    (∃ a : Word, r = .dataAddressOutOfRange a ∧ s.params.memWords ≤ a.toNat ∧
      t = { s with pc := s.pc + 2, status := .faulted r } ∧
      AboutToExecute s [.loadDirect, .loadIndirect, .loadIndexed, .store, .addMem, .subMem, .compareMem,
        .compareIndirect, .andMem, .xorMem, .orMem])

/-- R78: a step leaves `Running` only by a halt or a range fault, never for `Refused` (R18). -/
def Obligations.RunEndsOnlyByHaltOrARangeFault : Prop :=
  ∀ s t : State, step s = .next t →
    s.status = .running ∧
    (t.status = .running ∨ (t.status = .halted ∧ AboutToExecute s [.halt]) ∨ ∃ r, t.status = .faulted r)

/-- R16, R73, R101: after a step that fetched a pair, `PC` is the operand word if the pair is a jump that is taken and
`a0 + 2` in every other case; `a0 + 2` is at most `N`, and does not wrap unless N = 2^64 (log entry 5). -/
def Obligations.PcAfterAStep : Prop :=
  ∀ (s t : State) (op opd : Word), s.params.ok = true → Fetches s op opd → step s = .next t →
    s.pc.toNat + 2 ≤ s.params.memWords ∧
    ((op = s.params.opcode.of .jump ∨ (op = s.params.opcode.of .jumpIfEqual ∧ s.flag = 1) ∨
        (op = s.params.opcode.of .jumpIfNotEqual ∧ s.flag = 0)) → t.pc = opd) ∧
    (¬ (op = s.params.opcode.of .jump ∨ (op = s.params.opcode.of .jumpIfEqual ∧ s.flag = 1) ∨
        (op = s.params.opcode.of .jumpIfNotEqual ∧ s.flag = 0)) →
      t.pc = s.pc + 2 ∧ (s.params.memWords < 2 ^ 64 → t.pc.toNat = s.pc.toNat + 2))

/-- R27 and log entry 1: a memory in canonical form is determined by what its words read as, so two states with equal
memory contents have equal memories. -/
def Obligations.MemoryIsDeterminedByItsWords : Prop :=
  ∀ (n : Nat) (m m' : Memory), m.wf n = true → m'.wf n = true → (∀ a, a < n → m.read a = m'.read a) → m = m'

/-! ### Reset, load and the load-time toolchain -/

/-- R26, R142 steps 1, 3 and 4, R143: memory all zero, the label table empty, the status `Running`, the output streams
empty, the host's input in `in` and ENTRY in `PC`, under all parameters. The registers hold the parameters' reset values
(I4); that the reset machine has the defaults, all of these values 0, is the spec's own choice (D3, D4; log entry 6), and
that its input is empty is the model's (log entry 4). -/
def Obligations.ResetLeavesTheStatedValues : Prop :=
  (∀ (p : Params) (input : List Byte),
    (∀ a, (State.resetWith p input).mem.read a = 0) ∧ (State.resetWith p input).labels = [] ∧
    (State.resetWith p input).status = .running ∧ (State.resetWith p input).output = [] ∧
    (State.resetWith p input).diag = [] ∧ (State.resetWith p input).dbg = [] ∧
    (State.resetWith p input).input = input ∧ (State.resetWith p input).pc = p.entry ∧
    (State.resetWith p input).acc = p.resetAcc ∧ (State.resetWith p input).ix = p.resetIx ∧
    (State.resetWith p input).flag = p.resetFlag ∧ (State.resetWith p input).params = p) ∧
  State.reset = State.resetWith Params.default [] ∧
  State.reset.acc = 0 ∧ State.reset.ix = 0 ∧ State.reset.flag = 0 ∧ State.reset.pc = 0

/-- R142: loading an image that fits leaves its words in memory, 0 in every word it does not name, its labels in the
label table, the host's input in `in`, and everything else as at reset. The image names no address twice here. -/
def Obligations.LoadLeavesTheImageInMemory : Prop :=
  ∀ (q : Params) (img : Image) (input : List Byte), img.wf q.memWords = true → (img.words.map Prod.fst).Nodup →
    ∃ s, State.load q img input = .ok s ∧
      s = { State.resetWith q input with mem := s.mem, labels := img.labels } ∧
      (∀ w ∈ img.words, s.mem.read w.1 = w.2) ∧
      (∀ a, (∀ w ∈ img.words, w.1 ≠ a) → s.mem.read a = 0)

/-- R67: a label recorded at address `a` of a memory of any size, address 0 included, resolves to `a`, provided no lower
address carries the same name (R63) and the name begins with no literal prefix (R62). -/
def Obligations.LabelRoundTrip : Prop :=
  ∀ (p : Toolchain) (n : Nat) (labels : LabelTable) (a : Nat) (name : List Char),
    memWordsOk n = true → labels.wf n = true → (a, name) ∈ labels → (∀ b, b < a → (b, name) ∉ labels) →
    name.head? ∉ [some '#', some p.bin, some p.hex, some p.oct] →
    ∃ w, resolve p labels name = .ok w ∧ w.toNat = a

/-- R62 cases 1 to 5, R64, R65: a text of digits of its base, and then anything that does not go on with one, resolves to
the number the digits write, or fails above 2^64 - 1 (D22); the text after the digits is ignored (D23). The base is 10
after `#`, 2, 16 and 8 after the three prefixes, and `bareBase` for a bare token that is no label: decimal by default, the
spec's own choice (D20, I20; log entry 22). Letters of either case are digits: the model's choice (log entry 10). -/
def Obligations.LiteralsResolveToTheirValues : Prop :=
  ∀ (p : Toolchain) (labels : LabelTable) (base : Nat) (ds : List (Nat × Bool)) (rest : List Char),
    ds ≠ [] → (∀ d ∈ ds, d.1 < base) → StartsWithNoDigit base rest →
    (base = 10 → resolve p labels ('#' :: digitChars ds ++ rest) =
      literalAnswer (Nat.ofDigits base (ds.map Prod.fst).reverse) ('#' :: digitChars ds ++ rest)) ∧
    (p.ok = true →
      (base = 2 → resolve p labels (p.bin :: digitChars ds ++ rest) =
        literalAnswer (Nat.ofDigits base (ds.map Prod.fst).reverse) (p.bin :: digitChars ds ++ rest)) ∧
      (base = 16 → resolve p labels (p.hex :: digitChars ds ++ rest) =
        literalAnswer (Nat.ofDigits base (ds.map Prod.fst).reverse) (p.hex :: digitChars ds ++ rest)) ∧
      (base = 8 → resolve p labels (p.oct :: digitChars ds ++ rest) =
        literalAnswer (Nat.ofDigits base (ds.map Prod.fst).reverse) (p.oct :: digitChars ds ++ rest)) ∧
      (base = p.bareBase →
        (digitChars ds ++ rest).head? ∉ [some '#', some p.bin, some p.hex, some p.oct] →
        (∀ a, (a, digitChars ds ++ rest) ∉ labels) →
        resolve p labels (digitChars ds ++ rest) =
          literalAnswer (Nat.ofDigits base (ds.map Prod.fst).reverse) (digitChars ds ++ rest))) ∧
    ((Toolchain.default p.bin p.hex p.oct).bareBase = 10)

/-- R66, R64: a literal of any of the four prefixes without a digit of its base fails, as does a bare token that is no
label and begins with no digit of `bareBase` (decimal by default, D20; log entry 22), and the error reports the token; a
token that fails where an operand is used fails its source item; one such item aborts the whole load, with the resolver's
error; a source is loaded only when every token its instructions use resolves (log entry 23). -/
def Obligations.ResolutionFailureAbortsTheLoad : Prop :=
  ∀ (q : Params) (p : Toolchain) (labels : LabelTable) (src : List SourceItem) (input : List Byte),
    (∀ rest : List Char, StartsWithNoDigit 10 rest → resolve p labels ('#' :: rest) = .error (.malformed ('#' :: rest))) ∧
    (p.ok = true →
      (∀ rest : List Char, StartsWithNoDigit 2 rest →
        resolve p labels (p.bin :: rest) = .error (.malformed (p.bin :: rest))) ∧
      (∀ rest : List Char, StartsWithNoDigit 16 rest →
        resolve p labels (p.hex :: rest) = .error (.malformed (p.hex :: rest))) ∧
      (∀ rest : List Char, StartsWithNoDigit 8 rest →
        resolve p labels (p.oct :: rest) = .error (.malformed (p.oct :: rest))) ∧
      (∀ token : List Char, token.head? ∉ [some '#', some p.bin, some p.hex, some p.oct] →
        (∀ a, (a, token) ∉ labels) → StartsWithNoDigit p.bareBase token →
        resolve p labels token = .error (.malformed token))) ∧
    (∀ (a : Nat) (n : OpName) (token : List Char) (e : ResolveError), n.operandUse ≠ .ignored →
      resolve p labels token = .error e → assembleItem q.opcode p labels (.pair a n token) = .error e) ∧
    ((∃ item ∈ src, ∃ e, assembleItem q.opcode p labels item = .error e) →
      ∃ item ∈ src, ∃ e, assembleItem q.opcode p labels item = .error e ∧
        loadSource q p labels src input = .error (.unresolved e)) ∧
    (∀ s, loadSource q p labels src input = .ok s → ∀ a n token, .pair a n token ∈ src → n.operandUse ≠ .ignored →
      ∃ w, resolve p labels token = .ok w)

/-! ### The invariant -/

/-- The state at the start of a run meets the invariant, under all parameters that meet their constraints and with any
input, and so does the reset state. -/
def Obligations.ResetMeetsTheInvariant : Prop :=
  (∀ (p : Params) (input : List Byte), p.ok = true → (State.resetWith p input).Inv) ∧ State.reset.Inv

/-- From every state that meets the invariant, every step answers a state that meets it: memory stays in its canonical
form with no word outside it, labels and snapshots stay in form, every report names an unknown opcode, and a terminal
status agrees with `PC` and the recorded address. -/
def Obligations.StepKeepsTheInvariant : Prop :=
  ∀ s t : State, s.Inv → step s = .next t → t.Inv

/-- Every run of every image that fits (State.load: log entry 11), on every machine and input, of every length, meets the
invariant, keeps the machine's parameters and the image's labels, has consumed its input from the head only, and has
produced at most one element of output, report or snapshot, or consumed one byte, per step. -/
def Obligations.LoadedRunsKeepTheInvariant : Prop :=
  ∀ (q : Params) (img : Image) (input : List Byte) (s t : State) (k : Nat), q.ok = true →
    State.load q img input = .ok s → runSteps k s = .next t →
    t.Inv ∧ t.params = q ∧ t.labels = img.labels ∧
    ∃ c, input = c ++ t.input ∧ c.length + t.output.length + t.diag.length + t.dbg.length ≤ k
end

