-- ==== Sys2Proof/Laws/Decode.lean ====
section
/-! SUPPORT. The small lemmas of the decoder and the encoder: the list of names is complete, and an instruction and its
name and operand word determine each other. -/

namespace Sys2Proof

/-- The list of names is complete (R51). -/
theorem OpName.mem_all (n : OpName) : n ∈ OpName.all := by cases n <;> decide

@[simp] theorem Instr.name_ofName (n : OpName) (opd : Word) : (Instr.ofName n opd).name = n := by cases n <;> rfl

@[simp] theorem Instr.operand_ofName (n : OpName) (opd : Word) : (Instr.ofName n opd).operand = opd := by cases n <;> rfl

@[simp] theorem Instr.ofName_name_operand (i : Instr) : Instr.ofName i.name i.operand = i := by cases i <;> rfl

/-- Every map of names to words is a value of the parameter OPCODE (R52). -/
@[simp] theorem OpcodeMap.of_ofFun (f : OpName → Word) (n : OpName) : (OpcodeMap.ofFun f).of n = f n := by
  cases n <;> rfl

/-- Decoding a word that some name's opcode matches, when no other name's does. -/
theorem decodeWith_of_unique {opcode : OpName → Word} {n : OpName} (opd : Word)
    (hn : ∀ m, opcode m = opcode n → m = n) : decodeWith opcode (opcode n) opd = .instr (Instr.ofName n opd) := by
  unfold decodeWith
  cases h : OpName.all.find? (fun m => opcode m == opcode n) with
  | none => simpa using List.find?_eq_none.mp h n n.mem_all
  | some m => rw [hn m (by simpa using List.find?_some h)]

end Sys2Proof
end

