-- ==== Sys2Proof/Laws/State.lean ====
section
/-! SUPPORT. One lemma per field per update of the state, so that no later proof unfolds a record update. -/

namespace Sys2Proof.Machine

variable (s : State)

/-! setAcc -/

@[simp] theorem State.setAcc_params (v : Word) : (s.setAcc v).params = s.params := rfl
@[simp] theorem State.setAcc_acc (v : Word) : (s.setAcc v).acc = v := rfl
@[simp] theorem State.setAcc_ix (v : Word) : (s.setAcc v).ix = s.ix := rfl
@[simp] theorem State.setAcc_pc (v : Word) : (s.setAcc v).pc = s.pc := rfl
@[simp] theorem State.setAcc_flag (v : Word) : (s.setAcc v).flag = s.flag := rfl
@[simp] theorem State.setAcc_mem (v : Word) : (s.setAcc v).mem = s.mem := rfl
@[simp] theorem State.setAcc_labels (v : Word) : (s.setAcc v).labels = s.labels := rfl
@[simp] theorem State.setAcc_status (v : Word) : (s.setAcc v).status = s.status := rfl
@[simp] theorem State.setAcc_input (v : Word) : (s.setAcc v).input = s.input := rfl
@[simp] theorem State.setAcc_output (v : Word) : (s.setAcc v).output = s.output := rfl
@[simp] theorem State.setAcc_diag (v : Word) : (s.setAcc v).diag = s.diag := rfl
@[simp] theorem State.setAcc_dbg (v : Word) : (s.setAcc v).dbg = s.dbg := rfl
@[simp] theorem State.setAcc_draws (v : Word) : (s.setAcc v).draws = s.draws := rfl

/-! setIx -/

@[simp] theorem State.setIx_params (v : Word) : (s.setIx v).params = s.params := rfl
@[simp] theorem State.setIx_acc (v : Word) : (s.setIx v).acc = s.acc := rfl
@[simp] theorem State.setIx_ix (v : Word) : (s.setIx v).ix = v := rfl
@[simp] theorem State.setIx_pc (v : Word) : (s.setIx v).pc = s.pc := rfl
@[simp] theorem State.setIx_flag (v : Word) : (s.setIx v).flag = s.flag := rfl
@[simp] theorem State.setIx_mem (v : Word) : (s.setIx v).mem = s.mem := rfl
@[simp] theorem State.setIx_labels (v : Word) : (s.setIx v).labels = s.labels := rfl
@[simp] theorem State.setIx_status (v : Word) : (s.setIx v).status = s.status := rfl
@[simp] theorem State.setIx_input (v : Word) : (s.setIx v).input = s.input := rfl
@[simp] theorem State.setIx_output (v : Word) : (s.setIx v).output = s.output := rfl
@[simp] theorem State.setIx_diag (v : Word) : (s.setIx v).diag = s.diag := rfl
@[simp] theorem State.setIx_dbg (v : Word) : (s.setIx v).dbg = s.dbg := rfl
@[simp] theorem State.setIx_draws (v : Word) : (s.setIx v).draws = s.draws := rfl

/-! setPc -/

@[simp] theorem State.setPc_params (v : Word) : (s.setPc v).params = s.params := rfl
@[simp] theorem State.setPc_acc (v : Word) : (s.setPc v).acc = s.acc := rfl
@[simp] theorem State.setPc_ix (v : Word) : (s.setPc v).ix = s.ix := rfl
@[simp] theorem State.setPc_pc (v : Word) : (s.setPc v).pc = v := rfl
@[simp] theorem State.setPc_flag (v : Word) : (s.setPc v).flag = s.flag := rfl
@[simp] theorem State.setPc_mem (v : Word) : (s.setPc v).mem = s.mem := rfl
@[simp] theorem State.setPc_labels (v : Word) : (s.setPc v).labels = s.labels := rfl
@[simp] theorem State.setPc_status (v : Word) : (s.setPc v).status = s.status := rfl
@[simp] theorem State.setPc_input (v : Word) : (s.setPc v).input = s.input := rfl
@[simp] theorem State.setPc_output (v : Word) : (s.setPc v).output = s.output := rfl
@[simp] theorem State.setPc_diag (v : Word) : (s.setPc v).diag = s.diag := rfl
@[simp] theorem State.setPc_dbg (v : Word) : (s.setPc v).dbg = s.dbg := rfl
@[simp] theorem State.setPc_draws (v : Word) : (s.setPc v).draws = s.draws := rfl

/-! setFlag -/

@[simp] theorem State.setFlag_params (f : Flag) : (s.setFlag f).params = s.params := rfl
@[simp] theorem State.setFlag_acc (f : Flag) : (s.setFlag f).acc = s.acc := rfl
@[simp] theorem State.setFlag_ix (f : Flag) : (s.setFlag f).ix = s.ix := rfl
@[simp] theorem State.setFlag_pc (f : Flag) : (s.setFlag f).pc = s.pc := rfl
@[simp] theorem State.setFlag_flag (f : Flag) : (s.setFlag f).flag = f := rfl
@[simp] theorem State.setFlag_mem (f : Flag) : (s.setFlag f).mem = s.mem := rfl
@[simp] theorem State.setFlag_labels (f : Flag) : (s.setFlag f).labels = s.labels := rfl
@[simp] theorem State.setFlag_status (f : Flag) : (s.setFlag f).status = s.status := rfl
@[simp] theorem State.setFlag_input (f : Flag) : (s.setFlag f).input = s.input := rfl
@[simp] theorem State.setFlag_output (f : Flag) : (s.setFlag f).output = s.output := rfl
@[simp] theorem State.setFlag_diag (f : Flag) : (s.setFlag f).diag = s.diag := rfl
@[simp] theorem State.setFlag_dbg (f : Flag) : (s.setFlag f).dbg = s.dbg := rfl
@[simp] theorem State.setFlag_draws (f : Flag) : (s.setFlag f).draws = s.draws := rfl

/-! setMem -/

@[simp] theorem State.setMem_params (m : Memory) : (s.setMem m).params = s.params := rfl
@[simp] theorem State.setMem_acc (m : Memory) : (s.setMem m).acc = s.acc := rfl
@[simp] theorem State.setMem_ix (m : Memory) : (s.setMem m).ix = s.ix := rfl
@[simp] theorem State.setMem_pc (m : Memory) : (s.setMem m).pc = s.pc := rfl
@[simp] theorem State.setMem_flag (m : Memory) : (s.setMem m).flag = s.flag := rfl
@[simp] theorem State.setMem_mem (m : Memory) : (s.setMem m).mem = m := rfl
@[simp] theorem State.setMem_labels (m : Memory) : (s.setMem m).labels = s.labels := rfl
@[simp] theorem State.setMem_status (m : Memory) : (s.setMem m).status = s.status := rfl
@[simp] theorem State.setMem_input (m : Memory) : (s.setMem m).input = s.input := rfl
@[simp] theorem State.setMem_output (m : Memory) : (s.setMem m).output = s.output := rfl
@[simp] theorem State.setMem_diag (m : Memory) : (s.setMem m).diag = s.diag := rfl
@[simp] theorem State.setMem_dbg (m : Memory) : (s.setMem m).dbg = s.dbg := rfl
@[simp] theorem State.setMem_draws (m : Memory) : (s.setMem m).draws = s.draws := rfl

/-! setStatus -/

@[simp] theorem State.setStatus_params (st : Status) : (s.setStatus st).params = s.params := rfl
@[simp] theorem State.setStatus_acc (st : Status) : (s.setStatus st).acc = s.acc := rfl
@[simp] theorem State.setStatus_ix (st : Status) : (s.setStatus st).ix = s.ix := rfl
@[simp] theorem State.setStatus_pc (st : Status) : (s.setStatus st).pc = s.pc := rfl
@[simp] theorem State.setStatus_flag (st : Status) : (s.setStatus st).flag = s.flag := rfl
@[simp] theorem State.setStatus_mem (st : Status) : (s.setStatus st).mem = s.mem := rfl
@[simp] theorem State.setStatus_labels (st : Status) : (s.setStatus st).labels = s.labels := rfl
@[simp] theorem State.setStatus_status (st : Status) : (s.setStatus st).status = st := rfl
@[simp] theorem State.setStatus_input (st : Status) : (s.setStatus st).input = s.input := rfl
@[simp] theorem State.setStatus_output (st : Status) : (s.setStatus st).output = s.output := rfl
@[simp] theorem State.setStatus_diag (st : Status) : (s.setStatus st).diag = s.diag := rfl
@[simp] theorem State.setStatus_dbg (st : Status) : (s.setStatus st).dbg = s.dbg := rfl
@[simp] theorem State.setStatus_draws (st : Status) : (s.setStatus st).draws = s.draws := rfl

/-! setInput -/

@[simp] theorem State.setInput_params (bs : List Byte) : (s.setInput bs).params = s.params := rfl
@[simp] theorem State.setInput_acc (bs : List Byte) : (s.setInput bs).acc = s.acc := rfl
@[simp] theorem State.setInput_ix (bs : List Byte) : (s.setInput bs).ix = s.ix := rfl
@[simp] theorem State.setInput_pc (bs : List Byte) : (s.setInput bs).pc = s.pc := rfl
@[simp] theorem State.setInput_flag (bs : List Byte) : (s.setInput bs).flag = s.flag := rfl
@[simp] theorem State.setInput_mem (bs : List Byte) : (s.setInput bs).mem = s.mem := rfl
@[simp] theorem State.setInput_labels (bs : List Byte) : (s.setInput bs).labels = s.labels := rfl
@[simp] theorem State.setInput_status (bs : List Byte) : (s.setInput bs).status = s.status := rfl
@[simp] theorem State.setInput_input (bs : List Byte) : (s.setInput bs).input = bs := rfl
@[simp] theorem State.setInput_output (bs : List Byte) : (s.setInput bs).output = s.output := rfl
@[simp] theorem State.setInput_diag (bs : List Byte) : (s.setInput bs).diag = s.diag := rfl
@[simp] theorem State.setInput_dbg (bs : List Byte) : (s.setInput bs).dbg = s.dbg := rfl
@[simp] theorem State.setInput_draws (bs : List Byte) : (s.setInput bs).draws = s.draws := rfl

/-! emitOut -/

@[simp] theorem State.emitOut_params (b : Byte) : (s.emitOut b).params = s.params := rfl
@[simp] theorem State.emitOut_acc (b : Byte) : (s.emitOut b).acc = s.acc := rfl
@[simp] theorem State.emitOut_ix (b : Byte) : (s.emitOut b).ix = s.ix := rfl
@[simp] theorem State.emitOut_pc (b : Byte) : (s.emitOut b).pc = s.pc := rfl
@[simp] theorem State.emitOut_flag (b : Byte) : (s.emitOut b).flag = s.flag := rfl
@[simp] theorem State.emitOut_mem (b : Byte) : (s.emitOut b).mem = s.mem := rfl
@[simp] theorem State.emitOut_labels (b : Byte) : (s.emitOut b).labels = s.labels := rfl
@[simp] theorem State.emitOut_status (b : Byte) : (s.emitOut b).status = s.status := rfl
@[simp] theorem State.emitOut_input (b : Byte) : (s.emitOut b).input = s.input := rfl
@[simp] theorem State.emitOut_output (b : Byte) : (s.emitOut b).output = s.output ++ [b] := rfl
@[simp] theorem State.emitOut_diag (b : Byte) : (s.emitOut b).diag = s.diag := rfl
@[simp] theorem State.emitOut_dbg (b : Byte) : (s.emitOut b).dbg = s.dbg := rfl
@[simp] theorem State.emitOut_draws (b : Byte) : (s.emitOut b).draws = s.draws := rfl

/-! emitDiag -/

@[simp] theorem State.emitDiag_params (a0 op : Word) : (s.emitDiag a0 op).params = s.params := rfl
@[simp] theorem State.emitDiag_acc (a0 op : Word) : (s.emitDiag a0 op).acc = s.acc := rfl
@[simp] theorem State.emitDiag_ix (a0 op : Word) : (s.emitDiag a0 op).ix = s.ix := rfl
@[simp] theorem State.emitDiag_pc (a0 op : Word) : (s.emitDiag a0 op).pc = s.pc := rfl
@[simp] theorem State.emitDiag_flag (a0 op : Word) : (s.emitDiag a0 op).flag = s.flag := rfl
@[simp] theorem State.emitDiag_mem (a0 op : Word) : (s.emitDiag a0 op).mem = s.mem := rfl
@[simp] theorem State.emitDiag_labels (a0 op : Word) : (s.emitDiag a0 op).labels = s.labels := rfl
@[simp] theorem State.emitDiag_status (a0 op : Word) : (s.emitDiag a0 op).status = s.status := rfl
@[simp] theorem State.emitDiag_input (a0 op : Word) : (s.emitDiag a0 op).input = s.input := rfl
@[simp] theorem State.emitDiag_output (a0 op : Word) : (s.emitDiag a0 op).output = s.output := rfl
@[simp] theorem State.emitDiag_diag (a0 op : Word) : (s.emitDiag a0 op).diag = s.diag ++ [{ addr := a0, opcode := op }] := rfl
@[simp] theorem State.emitDiag_dbg (a0 op : Word) : (s.emitDiag a0 op).dbg = s.dbg := rfl
@[simp] theorem State.emitDiag_draws (a0 op : Word) : (s.emitDiag a0 op).draws = s.draws := rfl

/-! emitDbg -/

@[simp] theorem State.emitDbg_params (p : Snapshot) : (s.emitDbg p).params = s.params := rfl
@[simp] theorem State.emitDbg_acc (p : Snapshot) : (s.emitDbg p).acc = s.acc := rfl
@[simp] theorem State.emitDbg_ix (p : Snapshot) : (s.emitDbg p).ix = s.ix := rfl
@[simp] theorem State.emitDbg_pc (p : Snapshot) : (s.emitDbg p).pc = s.pc := rfl
@[simp] theorem State.emitDbg_flag (p : Snapshot) : (s.emitDbg p).flag = s.flag := rfl
@[simp] theorem State.emitDbg_mem (p : Snapshot) : (s.emitDbg p).mem = s.mem := rfl
@[simp] theorem State.emitDbg_labels (p : Snapshot) : (s.emitDbg p).labels = s.labels := rfl
@[simp] theorem State.emitDbg_status (p : Snapshot) : (s.emitDbg p).status = s.status := rfl
@[simp] theorem State.emitDbg_input (p : Snapshot) : (s.emitDbg p).input = s.input := rfl
@[simp] theorem State.emitDbg_output (p : Snapshot) : (s.emitDbg p).output = s.output := rfl
@[simp] theorem State.emitDbg_diag (p : Snapshot) : (s.emitDbg p).diag = s.diag := rfl
@[simp] theorem State.emitDbg_dbg (p : Snapshot) : (s.emitDbg p).dbg = s.dbg ++ [p] := rfl
@[simp] theorem State.emitDbg_draws (p : Snapshot) : (s.emitDbg p).draws = s.draws := rfl

/-! countDraw -/

@[simp] theorem State.countDraw_params : (s.countDraw).params = s.params := rfl
@[simp] theorem State.countDraw_acc : (s.countDraw).acc = s.acc := rfl
@[simp] theorem State.countDraw_ix : (s.countDraw).ix = s.ix := rfl
@[simp] theorem State.countDraw_pc : (s.countDraw).pc = s.pc := rfl
@[simp] theorem State.countDraw_flag : (s.countDraw).flag = s.flag := rfl
@[simp] theorem State.countDraw_mem : (s.countDraw).mem = s.mem := rfl
@[simp] theorem State.countDraw_labels : (s.countDraw).labels = s.labels := rfl
@[simp] theorem State.countDraw_status : (s.countDraw).status = s.status := rfl
@[simp] theorem State.countDraw_input : (s.countDraw).input = s.input := rfl
@[simp] theorem State.countDraw_output : (s.countDraw).output = s.output := rfl
@[simp] theorem State.countDraw_diag : (s.countDraw).diag = s.diag := rfl
@[simp] theorem State.countDraw_dbg : (s.countDraw).dbg = s.dbg := rfl
@[simp] theorem State.countDraw_draws : (s.countDraw).draws = s.draws + 1 := rfl

/-! advance -/

@[simp] theorem State.advance_params : (s.advance).params = s.params := rfl
@[simp] theorem State.advance_acc : (s.advance).acc = s.acc := rfl
@[simp] theorem State.advance_ix : (s.advance).ix = s.ix := rfl
@[simp] theorem State.advance_pc : (s.advance).pc = s.pc + 2 := rfl
@[simp] theorem State.advance_flag : (s.advance).flag = s.flag := rfl
@[simp] theorem State.advance_mem : (s.advance).mem = s.mem := rfl
@[simp] theorem State.advance_labels : (s.advance).labels = s.labels := rfl
@[simp] theorem State.advance_status : (s.advance).status = s.status := rfl
@[simp] theorem State.advance_input : (s.advance).input = s.input := rfl
@[simp] theorem State.advance_output : (s.advance).output = s.output := rfl
@[simp] theorem State.advance_diag : (s.advance).diag = s.diag := rfl
@[simp] theorem State.advance_dbg : (s.advance).dbg = s.dbg := rfl
@[simp] theorem State.advance_draws : (s.advance).draws = s.draws := rfl

end Sys2Proof.Machine
end

