-- ==== Sys2Proof/Laws/Memory.lean ====
section
/-! SUPPORT. The memory as a list in canonical form: what a write leaves to be read, and that every memory operation
keeps the form. -/

namespace Sys2Proof.Machine

variable {n : Nat}

/-- A form that starts at `lo` also starts anywhere below. -/
theorem Memory.wfFrom_mono {lo lo' : Nat} (m : Memory) (h : lo' ≤ lo) (hm : Memory.wfFrom n lo m = true) :
    Memory.wfFrom n lo' m = true := by
  cases m with
  | nil => rfl
  | cons e rest =>
    simp only [Memory.wfFrom, Bool.and_eq_true, decide_eq_true_eq] at hm ⊢
    exact ⟨⟨⟨by omega, hm.1.1.2⟩, hm.1.2⟩, hm.2⟩

/-- Below its first address a well-formed memory reads as blank. -/
theorem Memory.read_below {m : Memory} : ∀ {lo a : Nat}, Memory.wfFrom n lo m = true → a < lo → m.read a = Memory.blank := by
  induction m with
  | nil => intros; rfl
  | cons e rest ih =>
    intro lo a hm ha
    simp only [Memory.wfFrom, Bool.and_eq_true, decide_eq_true_eq] at hm
    rw [Memory.read, if_neg (by omega)]
    exact ih hm.2 (by omega)

/-- A well-formed memory lists no word at or above `N`. -/
theorem Memory.read_outside {m : Memory} {a : Nat} (ha : n ≤ a) :
    ∀ {lo : Nat}, Memory.wfFrom n lo m = true → m.read a = Memory.blank := by
  induction m with
  | nil => intros; rfl
  | cons e rest ih =>
    intro lo hm
    simp only [Memory.wfFrom, Bool.and_eq_true, decide_eq_true_eq] at hm
    rw [Memory.read, if_neg (by omega)]
    exact ih hm.2

/-- A write leaves every other word alone, in any memory. -/
theorem Memory.read_write_other (m : Memory) {a b : Nat} (v : Word) (h : b ≠ a) : (m.write a v).read b = m.read b := by
  induction m with
  | nil => by_cases hv : v = Memory.blank <;> simp [Memory.write, Memory.read, hv, h.symm]
  | cons e rest ih =>
    simp only [Memory.write]
    split_ifs <;> simp_all [Memory.read, eq_comm]

/-- The written word is read back, in a well-formed memory. -/
theorem Memory.read_write_same {m : Memory} (a : Nat) (v : Word) :
    ∀ {lo : Nat}, Memory.wfFrom n lo m = true → (m.write a v).read a = v := by
  induction m with
  | nil => intro lo _; by_cases hv : v = Memory.blank <;> simp [Memory.write, Memory.read, hv]
  | cons e rest ih =>
    intro lo hm
    have hread := Memory.read_below (m := e :: rest) (a := a) (Memory.wfFrom_mono _ (Nat.le_refl e.1) (by
      simp only [Memory.wfFrom, Bool.and_eq_true, decide_eq_true_eq] at hm ⊢
      exact ⟨⟨⟨Nat.le_refl _, hm.1.1.2⟩, hm.1.2⟩, hm.2⟩))
    simp only [Memory.wfFrom, Bool.and_eq_true, decide_eq_true_eq] at hm
    have hrest : a = e.1 → Memory.read rest a = Memory.blank := fun h => Memory.read_below hm.2 (by omega)
    simp only [Memory.write]
    split_ifs with h1 hv h2 hv
    · rw [hread h1, hv]
    · simp [Memory.read]
    · rw [hrest h2, hv]
    · simp [Memory.read]
    · rw [Memory.read, if_neg (fun h => h2 h.symm)]
      exact ih hm.2

/-- What a well-formed memory reads as after a write. -/
theorem Memory.read_write {m : Memory} (hm : m.wf n = true) (a b : Nat) (v : Word) :
    (m.write a v).read b = if b = a then v else m.read b := by
  by_cases h : b = a
  · rw [if_pos h, h, Memory.read_write_same a v hm]
  · rw [if_neg h, Memory.read_write_other m v h]

theorem Memory.write_wfFrom {a : Nat} (v : Word) (ha : a < n) :
    ∀ {m : Memory} {lo : Nat}, lo ≤ a → Memory.wfFrom n lo m = true → Memory.wfFrom n lo (m.write a v) = true := by
  intro m
  induction m with
  | nil => intro lo h _; by_cases hv : v = Memory.blank <;> simp [Memory.write, Memory.wfFrom, hv, h, ha]
  | cons e rest ih =>
    intro lo h hm
    have hm' := hm
    simp only [Memory.wfFrom, Bool.and_eq_true, decide_eq_true_eq, bne_iff_ne, ne_eq] at hm'
    simp only [Memory.write]
    split_ifs with h1 hv h2 hv
    · exact hm
    · simp only [Memory.wfFrom, Bool.and_eq_true, decide_eq_true_eq, bne_iff_ne, ne_eq]
      exact ⟨⟨⟨h, ha⟩, hv⟩, ⟨⟨by omega, hm'.1.1.2⟩, hm'.1.2⟩, hm'.2⟩
    · exact Memory.wfFrom_mono _ (by omega) hm'.2
    · simp only [Memory.wfFrom, Bool.and_eq_true, decide_eq_true_eq, bne_iff_ne, ne_eq]
      refine ⟨⟨⟨h, ha⟩, hv⟩, ?_⟩
      rw [h2]; exact hm'.2
    · simp only [Memory.wfFrom, Bool.and_eq_true, decide_eq_true_eq, bne_iff_ne, ne_eq]
      exact ⟨hm'.1, ih (by omega) hm'.2⟩

/-- A write inside memory keeps the canonical form. -/
theorem Memory.write_wf {m : Memory} {a : Nat} (v : Word) (ha : a < n) (hm : m.wf n = true) :
    (m.write a v).wf n = true :=
  Memory.write_wfFrom v ha (Nat.zero_le a) hm

/-- The reset memory is in canonical form. -/
theorem State.reset_mem_wf : State.reset.mem.wf n = true := rfl

end Sys2Proof.Machine
end

