-- ==== Sys2Proof/Laws/Ops.lean ====
section
/-! SUPPORT. One lemma per shared operation, saying everything it can answer; the meanings' proofs cite these instead of
unfolding the operations. -/

namespace Sys2Proof.Machine

variable {s t : State}

/-- `MemRead` inside memory. -/
theorem State.memRead_of_lt {a : Word} (h : a.toNat < s.params.memWords) : s.memRead a = .ok (s.mem.read a.toNat) :=
  if_pos h

/-- `MemRead` outside memory. -/
theorem State.memRead_of_le {a : Word} (h : s.params.memWords ≤ a.toNat) :
    s.memRead a = .error (.dataAddressOutOfRange a) :=
  if_neg (Nat.not_lt.mpr h)

/-- `MemRead` answers the word inside memory and the fault outside it, and nothing else. -/
theorem State.memRead_cases (s : State) (a : Word) :
    (a.toNat < s.params.memWords ∧ s.memRead a = .ok (s.mem.read a.toNat)) ∨
    (s.params.memWords ≤ a.toNat ∧ s.memRead a = .error (.dataAddressOutOfRange a)) := by
  by_cases h : a.toNat < s.params.memWords
  · exact .inl ⟨h, State.memRead_of_lt h⟩
  · exact .inr ⟨Nat.not_lt.mp h, State.memRead_of_le (Nat.not_lt.mp h)⟩

/-- The fault of the direct form is its own address, out of range. -/
theorem direct_error {opd : Word} {e : FaultReason} (h : direct s opd = .error e) :
    ∃ a : Word, s.params.memWords ≤ a.toNat ∧ e = .dataAddressOutOfRange a := by
  rcases s.memRead_cases opd with ⟨_, hr⟩ | ⟨hr, hr'⟩
  · simp [direct, directAddress, hr] at h
  · simp [direct, directAddress, hr'] at h; exact ⟨opd, hr, h.symm⟩

/-- The fault of the indexed form is an address out of range. -/
theorem indexed_error {opd : Word} {e : FaultReason} (h : indexed s opd = .error e) :
    ∃ a : Word, s.params.memWords ≤ a.toNat ∧ e = .dataAddressOutOfRange a :=
  direct_error (opd := indexedAddress s opd) h

/-- The fault of the indirect form is one of its two addresses, out of range. -/
theorem indirect_error {opd : Word} {e : FaultReason} (h : indirect s opd = .error e) :
    ∃ a : Word, s.params.memWords ≤ a.toNat ∧ e = .dataAddressOutOfRange a := by
  unfold indirect at h
  rcases s.memRead_cases opd with ⟨_, hr⟩ | ⟨hr, hr'⟩
  · rw [hr] at h
    exact direct_error (opd := s.mem.read opd.toNat) h
  · rw [hr'] at h
    exact ⟨opd, hr, by simpa using h.symm⟩

/-- An instruction over a read value either has its effect on the value or ends the run in the read's fault. -/
theorem withValue_next {r : Except FaultReason Word} {k : Word → State} (h : withValue r s k = .next t) :
    (∃ v, r = .ok v ∧ t = k v) ∨ (∃ e, r = .error e ∧ t = s.setStatus (.faulted e)) := by
  cases r with
  | ok v => exact .inl ⟨v, rfl, by simpa [withValue] using h.symm⟩
  | error e => exact .inr ⟨e, rfl, by simpa [withValue, raise] using h.symm⟩

/-- An instruction over a read value always answers a next state. -/
theorem withValue_answers (r : Except FaultReason Word) (s : State) (k : Word → State) :
    ∃ t, withValue r s k = .next t := by
  cases r with
  | ok v => exact ⟨k v, rfl⟩
  | error e => exact ⟨s.setStatus (.faulted e), rfl⟩

/-- `MemWrite` writes inside memory and ends the run in its fault outside it. -/
theorem memWrite_next {a v : Word} (h : memWrite a v s = .next t) :
    (a.toNat < s.params.memWords ∧ t = s.setMem (s.mem.write a.toNat v)) ∨
    (s.params.memWords ≤ a.toNat ∧ t = s.setStatus (.faulted (.dataAddressOutOfRange a))) := by
  unfold memWrite at h
  split at h
  · exact .inl ⟨‹_›, by simpa using h.symm⟩
  · exact .inr ⟨Nat.not_lt.mp ‹_›, by simpa [raise] using h.symm⟩

/-- A branch sets `PC` to its operand word or changes nothing. -/
theorem branch_next {taken : Flag → Bool} {opd : Word} (h : branch taken opd s = .next t) :
    (taken s.flag = true ∧ t = s.setPc opd) ∨ (taken s.flag = false ∧ t = s) := by
  unfold branch at h
  cases hf : taken s.flag <;> simp [hf] at h
  · exact .inr ⟨rfl, h.symm⟩
  · exact .inl ⟨rfl, h.symm⟩

/-- What `ReadChar()` answers: the byte at the head of `in`; with `in` empty, a free value under `anyValue`, and nothing
under `hold`. -/
theorem State.readChar_cases (s : State) :
    (∃ c rest, s.input = c :: rest ∧ s.readChar = some (c.setWidth 64, s.setInput rest)) ∨
    (s.input = [] ∧ s.params.eofPolicy = .anyValue ∧ s.readChar = some (Config.freeWord s.draws, s.countDraw)) ∨
    (s.input = [] ∧ s.params.eofPolicy = .hold ∧ s.readChar = none) := by
  unfold State.readChar
  cases hi : s.input with
  | cons c rest => exact .inl ⟨c, rest, rfl, rfl⟩
  | nil =>
    cases hp : s.params.eofPolicy with
    | hold => exact .inr (.inr ⟨rfl, rfl, rfl⟩)
    | anyValue => exact .inr (.inl ⟨rfl, rfl, rfl⟩)

/-- A shift by less than 64. -/
theorem shiftAcc_small {f : Word → Nat → Word} {amount : Word} (h : amount.toNat < 64) :
    shiftAcc f amount s = s.setAcc (f s.acc amount.toNat) := if_pos h

/-- A shift by 64 or more under SHIFT_OVERSIZE = zero. -/
theorem shiftAcc_zero {f : Word → Nat → Word} {amount : Word} (h : 64 ≤ amount.toNat)
    (hp : s.params.shiftOversize = .zero) : shiftAcc f amount s = s.setAcc 0 := by
  unfold shiftAcc
  rw [if_neg (Nat.not_lt.mpr h), hp]

/-- A shift by 64 or more under SHIFT_OVERSIZE = any value. -/
theorem shiftAcc_anyValue {f : Word → Nat → Word} {amount : Word} (h : 64 ≤ amount.toNat)
    (hp : s.params.shiftOversize = .anyValue) :
    shiftAcc f amount s = (s.setAcc (Config.freeWord s.draws)).countDraw := by
  unfold shiftAcc
  rw [if_neg (Nat.not_lt.mpr h), hp]

/-- A shift writes `ACC`, and counts a draw where it drew its result. -/
theorem shiftAcc_cases (f : Word → Nat → Word) (amount : Word) (s : State) :
    ∃ v, shiftAcc f amount s = s.setAcc v ∨ shiftAcc f amount s = (s.setAcc v).countDraw := by
  rcases Nat.lt_or_ge amount.toNat 64 with h | h
  · exact ⟨_, .inl (shiftAcc_small h)⟩
  · cases hp : s.params.shiftOversize with
    | zero => exact ⟨_, .inl (shiftAcc_zero h hp)⟩
    | anyValue => exact ⟨_, .inr (shiftAcc_anyValue h hp)⟩

/-- A step applies exactly when the status is `Running` (R68). -/
theorem State.stopped_none : s.stopped = none ↔ s.status = .running := by
  unfold State.stopped
  cases h : s.status <;> simp

/-- A pair is fetched exactly when both its words lie in memory (R70, R71). -/
theorem State.fetchCheck_none : s.fetchCheck = none ↔ s.pc.toNat + 1 < s.params.memWords := by
  unfold State.fetchCheck
  split_ifs <;> simp <;> omega

/-- The first check (R70). -/
theorem State.fetchCheck_pc (h : s.params.memWords ≤ s.pc.toNat) : s.fetchCheck = some .pcOutOfRange := if_pos h

/-- The second check (R71). -/
theorem State.fetchCheck_operand (h : s.pc.toNat + 1 = s.params.memWords) :
    s.fetchCheck = some .operandFetchOutOfRange := by
  unfold State.fetchCheck
  rw [if_neg (by omega), if_pos h]

/-- What `Params.ok` says (R5, R52). -/
theorem params_ok {p : Params} (h : p.ok = true) :
    2 ≤ p.memWords ∧ p.memWords ≤ 2 ^ 64 ∧ Function.Injective p.opcode.of := by
  simp only [Params.ok, memWordsOk, Bool.and_eq_true, decide_eq_true_eq] at h
  refine ⟨h.1.1, h.1.2, fun m n hmn => ?_⟩
  have h2 := List.all_eq_true.mp (List.all_eq_true.mp h.2 m m.mem_all) n n.mem_all
  simpa [hmn] using h2

/-- The advance of a fetched pair never wraps (R16), but at `N = 2^64`, from the last pair (log entry 5). -/
theorem State.advance_toNat (hN : s.params.memWords < 2 ^ 64) (h : s.pc.toNat + 1 < s.params.memWords) :
    (s.pc + 2).toNat = s.pc.toNat + 2 := by
  have h2 : (2 : Word).toNat = 2 := rfl
  rw [BitVec.toNat_add, h2, Nat.mod_eq_of_lt (by omega)]

/-- The advance of a fetched pair is an advanced `PC`. -/
theorem AdvancedPc.advance (h : s.pc.toNat + 1 < s.params.memWords) : AdvancedPc s.params.memWords (s.pc + 2) :=
  ⟨s.pc, h, rfl⟩

end Sys2Proof.Machine
end

