-- ==== Sys2Proof/Laws/Exec.lean ====
section
/-! SUPPORT. What one instruction and one step can do, said once (R69, R75): the proofs about all instructions or all
steps go through `exec_next` and `step_next`. -/

namespace Sys2Proof.Machine

variable {s t : State}

/-- The first step of a run of a host's core. -/
theorem coreRun_succ (M : Host.Core) (k : Nat) (s : M.State) :
    (∀ t, M.step s = .next t → M.run (k + 1) s = M.run k t) ∧
    (∀ f, M.step s = .fault f → M.run (k + 1) s = .fault f) ∧
    (∀ r, M.step s = .refused r → M.run (k + 1) s = .refused r) := by
  refine ⟨fun t h => ?_, fun f h => ?_, fun r h => ?_⟩ <;> simp only [Host.Core.run, h]

/-- `runSteps` is the host's run of this machine. -/
theorem runSteps_eq_core_run (k : Nat) : ∀ s : State, runSteps k s = Host.Core.run Sys2Proof.core k s := by
  induction k with
  | zero => intro s; rfl
  | succ k ih =>
    intro s
    obtain ⟨hn, hf, hr⟩ := coreRun_succ Sys2Proof.core k s
    unfold runSteps
    cases h : step s with
    | next t => exact (ih t).trans (hn t h).symm
    | fault f => exact (hf f h).symm
    | refused r => exact (hr r h).symm

/-- A run of one more step that answers a next state goes through the next state of its first step. -/
theorem runSteps_succ_next {k : Nat} (h : runSteps (k + 1) s = .next t) :
    ∃ u, step s = .next u ∧ runSteps k u = .next t := by
  unfold runSteps at h
  split at h
  · exact ⟨_, ‹_›, h⟩
  · cases h
  · cases h

/-- Two instructions over the same read value agree when their effects do, on the value and on its fault. -/
theorem withValue_agree {R : State → State → Prop} (r : Except FaultReason Word) {u : State} {k l : Word → State}
    (hk : ∀ v, R (k v) (l v)) (he : ∀ e, R (s.setStatus (.faulted e)) (u.setStatus (.faulted e))) :
    AgreeOn R (withValue r s k) (withValue r u l) := by
  cases r with
  | ok v => exact hk v
  | error e => exact he e

/-- The instructions that make a data access (R127). -/
def dataAccessors : List OpName :=
  [.loadDirect, .loadIndirect, .loadIndexed, .store, .addMem, .subMem, .compareMem, .compareIndirect,
   .andMem, .xorMem, .orMem]

/-- The instructions whose result can be a free value, under `anyValue` (R114, R115, R117). -/
def drawers : List OpName := [.shiftLeft, .shiftRight, .charIn]

/-- The effect of an instruction that answers a next state: exactly one kind of write. -/
inductive Effect (i : Instr) (s t : State) : Prop where
  | acc (v : Word) (h : t = s.setAcc v)
      (hi : i.name ∈ [.loadImmediate, .loadDirect, .loadIndirect, .loadIndexed, .addImm, .addMem, .subImm, .subMem,
        .incAcc, .decAcc, .andImm, .andMem, .xorImm, .xorMem, .orImm, .orMem, .shiftLeft, .shiftRight])
  | drawn (v : Word) (h : t = (s.setAcc v).countDraw) (hi : i.name ∈ drawers)
  | ix (v : Word) (h : t = s.setIx v) (hi : i.name ∈ [.loadIndexImmediate, .moveAccToIndex, .incIndex, .decIndex])
  | flag (f : Flag) (h : t = s.setFlag f) (hi : i.name ∈ [.compareMem, .compareImm, .compareIndirect])
  | jump (h : t = s.setPc i.operand) (hi : i.name ∈ [.jump, .jumpIfEqual, .jumpIfNotEqual])
  | fallThrough (h : t = s) (hi : i.name ∈ [.jumpIfEqual, .jumpIfNotEqual])
  | store (opd : Word) (hi : i = .store opd) (ha : opd.toNat < s.params.memWords)
      (h : t = s.setMem (s.mem.write opd.toNat s.acc))
  | charIn (c : Byte) (rest : List Byte) (hc : s.input = c :: rest)
      (h : t = (s.setInput rest).setAcc (c.setWidth 64)) (hi : i.name = .charIn)
  | charOut (h : t = s.emitOut (s.acc.setWidth 8)) (hi : i.name = .charOut)
  | halt (h : t = s.setStatus .halted) (hi : i.name = .halt)
  | inspect (h : t = s.emitDbg s.snapshot) (hi : i.name = .inspect)
  | fault (a : Word) (ha : s.params.memWords ≤ a.toNat) (h : t = s.setStatus (.faulted (.dataAddressOutOfRange a)))
      (hi : i.name ∈ dataAccessors)

/-- An instruction over the direct form. -/
theorem effect_direct {i : Instr} {opd : Word} {k : Word → State} (h : withValue (direct s opd) s k = .next t)
    (hi : i.name ∈ dataAccessors) (hk : ∀ v, Effect i s (k v)) : Effect i s t := by
  rcases withValue_next h with ⟨v, _, rfl⟩ | ⟨e, he, rfl⟩
  · exact hk v
  · obtain ⟨a, ha, rfl⟩ := direct_error he
    exact .fault a ha rfl hi

/-- An instruction over the indirect form. -/
theorem effect_indirect {i : Instr} {opd : Word} {k : Word → State} (h : withValue (indirect s opd) s k = .next t)
    (hi : i.name ∈ dataAccessors) (hk : ∀ v, Effect i s (k v)) : Effect i s t := by
  rcases withValue_next h with ⟨v, _, rfl⟩ | ⟨e, he, rfl⟩
  · exact hk v
  · obtain ⟨a, ha, rfl⟩ := indirect_error he
    exact .fault a ha rfl hi

/-- What an instruction that answers a next state did. -/
theorem exec_next {i : Instr} (h : exec i s = .next t) : Effect i s t := by
  cases i <;>
    simp only [exec, execLoadImmediate, execLoadDirect, execLoadIndirect, execLoadIndexed, execLoadIndexImmediate,
      execMoveAccToIndex, execStore, execAddImm, execAddMem, execSubImm, execSubMem, execIncAcc, execIncIndex,
      execDecAcc, execDecIndex, execCompareMem, execCompareImm, execCompareIndirect, execJump, execJumpIfEqual,
      execJumpIfNotEqual, execAndImm, execAndMem, execXorImm, execXorMem, execOrImm, execOrMem, execShiftLeft,
      execShiftRight, execCharIn, execCharOut, execHalt, execInspect, Host.Outcome.next.injEq] at h
  case loadImmediate | addImm | subImm | incAcc | decAcc | andImm | xorImm | orImm =>
    exact .acc _ h.symm (by simp [Instr.name])
  case shiftLeft opd =>
    obtain ⟨v, hv | hv⟩ := shiftAcc_cases (fun v n => v <<< n) (immediate opd) s
    · exact .acc v (h ▸ hv) (by simp [Instr.name])
    · exact .drawn v (h ▸ hv) (by simp [Instr.name, drawers])
  case shiftRight opd =>
    obtain ⟨v, hv | hv⟩ := shiftAcc_cases (fun v n => v >>> n) (immediate opd) s
    · exact .acc v (h ▸ hv) (by simp [Instr.name])
    · exact .drawn v (h ▸ hv) (by simp [Instr.name, drawers])
  case loadDirect | addMem | subMem | andMem | xorMem | orMem =>
    exact effect_direct h (by simp [Instr.name, dataAccessors]) fun _ => .acc _ rfl (by simp [Instr.name])
  case loadIndexed => exact effect_direct h (by simp [Instr.name, dataAccessors]) fun _ => .acc _ rfl (by simp [Instr.name])
  case loadIndirect => exact effect_indirect h (by simp [Instr.name, dataAccessors]) fun _ => .acc _ rfl (by simp [Instr.name])
  case loadIndexImmediate | moveAccToIndex | incIndex | decIndex => exact .ix _ h.symm (by simp [Instr.name])
  case compareImm => exact .flag _ h.symm (by simp [Instr.name])
  case compareMem => exact effect_direct h (by simp [Instr.name, dataAccessors]) fun _ => .flag _ rfl (by simp [Instr.name])
  case compareIndirect =>
    exact effect_indirect h (by simp [Instr.name, dataAccessors]) fun _ => .flag _ rfl (by simp [Instr.name])
  case store opd =>
    rcases memWrite_next h with ⟨ha, rfl⟩ | ⟨ha, rfl⟩
    · exact .store opd rfl ha rfl
    · exact .fault opd ha rfl (by simp [Instr.name, dataAccessors])
  case jump opd =>
    rcases branch_next h with ⟨_, rfl⟩ | ⟨hf, _⟩
    · exact .jump rfl (by simp [Instr.name])
    · simp [takenAlways] at hf
  case jumpIfEqual | jumpIfNotEqual =>
    rcases branch_next h with ⟨_, rfl⟩ | ⟨_, rfl⟩
    · exact .jump rfl (by simp [Instr.name])
    · exact .fallThrough rfl (by simp [Instr.name])
  case charIn =>
    rcases s.readChar_cases with ⟨c, rest, hc, hr⟩ | ⟨_, _, hr⟩ | ⟨_, _, hr⟩ <;> rw [hr] at h <;>
      simp only [Host.Outcome.next.injEq, reduceCtorEq] at h
    · exact .charIn c rest hc h.symm rfl
    · exact .drawn _ h.symm (by simp [Instr.name, drawers])
  case charOut => exact .charOut h.symm rfl
  case halt => exact .halt h.symm rfl
  case inspect => exact .inspect h.symm rfl

/-- The four ways a step answers a next state (R69). -/
theorem step_next (h : step s = .next t) :
    s.status = .running ∧
    ((s.params.memWords ≤ s.pc.toNat ∧ t = s.setStatus (.faulted .pcOutOfRange)) ∨
     (s.pc.toNat + 1 = s.params.memWords ∧ t = s.setStatus (.faulted .operandFetchOutOfRange)) ∨
     (s.pc.toNat + 1 < s.params.memWords ∧
      ((∃ i, s.decode s.fetchOp s.fetchOperand = .instr i ∧ exec i s.advance = .next t) ∨
       (∃ op, s.decode s.fetchOp s.fetchOperand = .unknown op ∧ t = s.advance.emitDiag s.pc op)))) := by
  unfold step at h
  split at h
  · cases h
  · rename_i hs
    refine ⟨State.stopped_none.mp hs, ?_⟩
    rcases Nat.lt_trichotomy (s.pc.toNat + 1) s.params.memWords with hp | hp | hp
    · rw [State.fetchCheck_none.mpr hp] at h
      dsimp only at h
      refine .inr (.inr ⟨hp, ?_⟩)
      split at h
      · exact .inl ⟨_, ‹_›, h⟩
      · exact .inr ⟨_, ‹_›, by simpa [skipUnknown] using h.symm⟩
    · rw [State.fetchCheck_operand hp] at h
      exact .inr (.inl ⟨hp, by simpa [raise] using h.symm⟩)
    · rw [State.fetchCheck_pc (by omega)] at h
      exact .inl ⟨by omega, by simpa [raise] using h.symm⟩

end Sys2Proof.Machine
end

