-- ==== Sys2Proof/Laws/Load.lean ====
section
/-! SUPPORT. The load operations keep the memory's form, and the placed instruction is what the next step fetches. -/

namespace Sys2Proof.Machine

/-- Writing words inside memory keeps the canonical form. -/
theorem writeWords_wf {n : Nat} (ws : List (Nat × Word)) :
    ∀ m : Memory, m.wf n = true → (∀ w ∈ ws, w.1 < n) → (writeWords m ws).wf n = true := by
  induction ws with
  | nil => exact fun m h _ => h
  | cons w ws ih =>
    intro m h hw
    exact ih _ (Memory.write_wf _ (hw w (by simp)) h) fun x hx => hw x (by simp [hx])

/-- Words at other addresses leave a word alone. -/
theorem writeWords_read_other (ws : List (Nat × Word)) (a : Nat) :
    ∀ m : Memory, (∀ w ∈ ws, w.1 ≠ a) → (writeWords m ws).read a = m.read a := by
  induction ws with
  | nil => exact fun m _ => rfl
  | cons w ws ih =>
    intro m h
    exact (ih _ fun x hx => h x (by simp [hx])).trans (Memory.read_write_other _ _ (h w (by simp)).symm)

/-- A source assembles when all its items do, and otherwise fails with the error of one of them (R66). -/
theorem assemble_cases (opcode : OpcodeMap) (p : Toolchain) (labels : LabelTable) (src : List SourceItem) :
    (∃ item ∈ src, ∃ e, assembleItem opcode p labels item = .error e ∧ assemble opcode p labels src = .error e) ∨
    ((∀ item ∈ src, ∃ ws, assembleItem opcode p labels item = .ok ws) ∧ ∃ ws, assemble opcode p labels src = .ok ws) := by
  induction src with
  | nil => exact .inr ⟨fun _ h => (List.not_mem_nil h).elim, [], rfl⟩
  | cons x rest ih =>
    cases hx : assembleItem opcode p labels x with
    | error e => exact .inl ⟨x, by simp, e, hx, by simp [assemble, hx]⟩
    | ok ws =>
      rcases ih with ⟨y, hy, e, he, ha⟩ | ⟨hall, more, ha⟩
      · exact .inl ⟨y, by simp [hy], e, he, by simp [assemble, hx, ha]⟩
      · exact .inr ⟨List.forall_mem_cons.mpr ⟨⟨ws, hx⟩, hall⟩, ws ++ more, by simp [assemble, hx, ha]⟩

/-- The place of a placed instruction can be fetched from, in a machine whose `N` meets its constraint (R5). -/
theorem placePc_fetchable {s : State} (h : 2 ≤ s.params.memWords) : (placePc s).toNat + 1 < s.params.memWords := by
  unfold placePc
  split_ifs with h1 h2
  · exact h1
  · exact h2
  · exact h

/-- Placing an instruction keeps the memory's form. -/
theorem placeInstruction_wf {s : State} (op opd : Word) (hN : 2 ≤ s.params.memWords)
    (h : s.mem.wf s.params.memWords = true) : (placeInstruction s op opd).mem.wf s.params.memWords = true :=
  have hp := placePc_fetchable hN
  Memory.write_wf opd hp (Memory.write_wf op (by omega) h)

/-- The very next step fetches the placed instruction. -/
theorem withFetchWord_fetches {s : State} (nbits w : Nat) (hN : 2 ≤ s.params.memWords)
    (h : s.mem.wf s.params.memWords = true) :
    Fetches (s.withFetchWord nbits w) (tableWords nbits w).1 (tableWords nbits w).2 := by
  have hp := placePc_fetchable hN
  have hw := Memory.write_wf (tableWords nbits w).1 (show (placePc s).toNat < s.params.memWords by omega) h
  exact ⟨rfl, hp, (Memory.read_write_other _ _ (show (placePc s).toNat ≠ (placePc s).toNat + 1 by omega)).trans
    (Memory.read_write_same _ _ h),
    Memory.read_write_same _ _ hw⟩

end Sys2Proof.Machine
end

