-- ==== Sys2Proof/Laws/PerInstr.lean ====
section
/-! SUPPORT. The family NameAndOperand: an instruction is its name and its operand word, whatever the word, and both
survive the encoder (R48, R54). One lemma per constructor. -/

namespace Sys2Proof.Laws

/-- The instruction is well-formed, is rebuilt from its name and operand word, and its operand is its second word. -/
def NameAndOperand.Statement (i : Instr) : Prop :=
  i.wf = true ∧ Instr.ofName i.name i.operand = i ∧ (encode i).2 = i.operand

theorem NameAndOperand.loadImmediate (opd : Word) : NameAndOperand.Statement (.loadImmediate opd) := ⟨rfl, rfl, rfl⟩
theorem NameAndOperand.loadDirect (opd : Word) : NameAndOperand.Statement (.loadDirect opd) := ⟨rfl, rfl, rfl⟩
theorem NameAndOperand.loadIndirect (opd : Word) : NameAndOperand.Statement (.loadIndirect opd) := ⟨rfl, rfl, rfl⟩
theorem NameAndOperand.loadIndexed (opd : Word) : NameAndOperand.Statement (.loadIndexed opd) := ⟨rfl, rfl, rfl⟩
theorem NameAndOperand.loadIndexImmediate (opd : Word) : NameAndOperand.Statement (.loadIndexImmediate opd) := ⟨rfl, rfl, rfl⟩
theorem NameAndOperand.moveAccToIndex (opd : Word) : NameAndOperand.Statement (.moveAccToIndex opd) := ⟨rfl, rfl, rfl⟩
theorem NameAndOperand.store (opd : Word) : NameAndOperand.Statement (.store opd) := ⟨rfl, rfl, rfl⟩
theorem NameAndOperand.addImm (opd : Word) : NameAndOperand.Statement (.addImm opd) := ⟨rfl, rfl, rfl⟩
theorem NameAndOperand.addMem (opd : Word) : NameAndOperand.Statement (.addMem opd) := ⟨rfl, rfl, rfl⟩
theorem NameAndOperand.subImm (opd : Word) : NameAndOperand.Statement (.subImm opd) := ⟨rfl, rfl, rfl⟩
theorem NameAndOperand.subMem (opd : Word) : NameAndOperand.Statement (.subMem opd) := ⟨rfl, rfl, rfl⟩
theorem NameAndOperand.incAcc (opd : Word) : NameAndOperand.Statement (.incAcc opd) := ⟨rfl, rfl, rfl⟩
theorem NameAndOperand.incIndex (opd : Word) : NameAndOperand.Statement (.incIndex opd) := ⟨rfl, rfl, rfl⟩
theorem NameAndOperand.decAcc (opd : Word) : NameAndOperand.Statement (.decAcc opd) := ⟨rfl, rfl, rfl⟩
theorem NameAndOperand.decIndex (opd : Word) : NameAndOperand.Statement (.decIndex opd) := ⟨rfl, rfl, rfl⟩
theorem NameAndOperand.compareMem (opd : Word) : NameAndOperand.Statement (.compareMem opd) := ⟨rfl, rfl, rfl⟩
theorem NameAndOperand.compareImm (opd : Word) : NameAndOperand.Statement (.compareImm opd) := ⟨rfl, rfl, rfl⟩
theorem NameAndOperand.compareIndirect (opd : Word) : NameAndOperand.Statement (.compareIndirect opd) := ⟨rfl, rfl, rfl⟩
theorem NameAndOperand.jump (opd : Word) : NameAndOperand.Statement (.jump opd) := ⟨rfl, rfl, rfl⟩
theorem NameAndOperand.jumpIfEqual (opd : Word) : NameAndOperand.Statement (.jumpIfEqual opd) := ⟨rfl, rfl, rfl⟩
theorem NameAndOperand.jumpIfNotEqual (opd : Word) : NameAndOperand.Statement (.jumpIfNotEqual opd) := ⟨rfl, rfl, rfl⟩
theorem NameAndOperand.andImm (opd : Word) : NameAndOperand.Statement (.andImm opd) := ⟨rfl, rfl, rfl⟩
theorem NameAndOperand.andMem (opd : Word) : NameAndOperand.Statement (.andMem opd) := ⟨rfl, rfl, rfl⟩
theorem NameAndOperand.xorImm (opd : Word) : NameAndOperand.Statement (.xorImm opd) := ⟨rfl, rfl, rfl⟩
theorem NameAndOperand.xorMem (opd : Word) : NameAndOperand.Statement (.xorMem opd) := ⟨rfl, rfl, rfl⟩
theorem NameAndOperand.orImm (opd : Word) : NameAndOperand.Statement (.orImm opd) := ⟨rfl, rfl, rfl⟩
theorem NameAndOperand.orMem (opd : Word) : NameAndOperand.Statement (.orMem opd) := ⟨rfl, rfl, rfl⟩
theorem NameAndOperand.shiftLeft (opd : Word) : NameAndOperand.Statement (.shiftLeft opd) := ⟨rfl, rfl, rfl⟩
theorem NameAndOperand.shiftRight (opd : Word) : NameAndOperand.Statement (.shiftRight opd) := ⟨rfl, rfl, rfl⟩
theorem NameAndOperand.charIn (opd : Word) : NameAndOperand.Statement (.charIn opd) := ⟨rfl, rfl, rfl⟩
theorem NameAndOperand.charOut (opd : Word) : NameAndOperand.Statement (.charOut opd) := ⟨rfl, rfl, rfl⟩
theorem NameAndOperand.halt (opd : Word) : NameAndOperand.Statement (.halt opd) := ⟨rfl, rfl, rfl⟩
theorem NameAndOperand.inspect (opd : Word) : NameAndOperand.Statement (.inspect opd) := ⟨rfl, rfl, rfl⟩

end Sys2Proof.Laws
end

