-- ==== Sys2Proof/Tests/Slice0.lean ====
section
/-! SUPPORT. The model's own tests. Expected values are those of spec/95_test_vectors.md (V1 to V76, E7) or the examples
and corner cases of the rules, never the model's answers. Then the smoke tests of the checks, and for every statement
with hypotheses a named witness that meets them. -/

namespace Sys2Proof.Tests

open Sys2Proof.Machine

/-- A running state with the given registers and memory, the rest as at reset. -/
def start (acc ix : Word) (flag : Flag) (pc : Word) (mem : Memory) : State :=
  { State.reset with acc := acc, ix := ix, flag := flag, pc := pc, mem := mem }

/-- The state after one step, if there is one. -/
def after (s : State) : Option State := nextOf (step s)

/-! ### The cycle -/

-- V1, V2
theorem test_pc_out_of_range :
    after (start 0 0 0 1024 []) = some { start 0 0 0 1024 [] with status := .faulted .pcOutOfRange } := by decide

-- V3
theorem test_operand_fetch_out_of_range :
    after (start 0 0 0 1023 []) = some { start 0 0 0 1023 [] with status := .faulted .operandFetchOutOfRange } := by
  decide

-- V5
theorem test_unknown_opcode :
    after (start 0 0 0 0 [(0, 0x22), (1, 5)]) =
      some { start 0 0 0 2 [(0, 0x22), (1, 5)] with diag := [{ addr := 0, opcode := 0x22 }] } := by decide

-- E7: an all-zero opcode word is unknown
theorem test_zero_word_is_unknown :
    (after (start 0 0 0 0 [(1, 77)])).map (fun s => (s.pc, s.status, s.diag)) =
      some (2, .running, [{ addr := 0, opcode := 0 }]) := by decide

-- V7: an odd address
theorem test_odd_pc : (after (start 0 0 0 3 [(3, 0x01), (4, 9)])).map (fun s => (s.acc, s.pc)) = some (9, 5) := by decide

-- V8
theorem test_halted_takes_no_step : faultOf (step { State.reset with status := .halted }) = some .halted := by decide

-- R130
theorem test_outcome_codes :
    [Status.running, .halted, .faulted .pcOutOfRange, .faulted .operandFetchOutOfRange,
      .faulted (.dataAddressOutOfRange 1024)].map Status.code = [some 0, some 1, some 2, some 3, some 4] := by decide

/-! ### Load, transfer, store -/

-- V9
theorem test_load_immediate : (after (start 3 0 0 0 [(0, 0x01), (1, Word.max)])).map (·.acc) = some Word.max := by decide

-- V11: its own opcode word
theorem test_load_direct : (after (start 0 0 0 0 [(0, 0x02)])).map (·.acc) = some 0x02 := by decide

-- V12
theorem test_load_direct_fault :
    (after (start 4 0 0 0 [(0, 0x02), (1, 1024)])).map (fun s => (s.status, s.acc, s.pc)) =
      some (.faulted (.dataAddressOutOfRange 1024), 4, 2) := by decide

-- V13
theorem test_load_indirect :
    (after (start 0 0 0 0 [(0, 0x03), (1, 100), (100, 255), (255, 42)])).map (·.acc) = some 42 := by decide

-- V14: the second read
theorem test_load_indirect_fault :
    (after (start 0 0 0 0 [(0, 0x03), (1, 100), (100, 2000)])).map (·.status) =
      some (.faulted (.dataAddressOutOfRange 2000)) := by decide

-- V18: the sum wraps
theorem test_load_indexed_wraps :
    (after (start 0 1 0 0 [(0, 0x04), (1, Word.max)])).map (fun s => (s.acc, s.ix)) = some (0x04, 1) := by decide

-- V19
theorem test_load_indexed_fault :
    (after (start 0 1 0 0 [(0, 0x04), (1, 1023)])).map (·.status) = some (.faulted (.dataAddressOutOfRange 1024)) := by
  decide

-- V20
theorem test_load_index_immediate : (after (start 7 9 0 0 [(0, 0x05)])).map (fun s => (s.acc, s.ix)) = some (7, 0) := by
  decide

-- V21: the operand word is ignored
theorem test_move_acc_to_index :
    (after (start 5 9 0 0 [(0, 0x06), (1, 77)])).map (fun s => (s.acc, s.ix)) = some (5, 5) := by decide

-- V24: a store into the pair being executed
theorem test_store_into_itself :
    after (start 0x20 0 0 0 [(0, 0x07)]) = some (start 0x20 0 0 2 [(0, 0x20)]) := by decide

-- V23
theorem test_store_fault :
    (after (start 1 0 0 0 [(0, 0x07), (1, 1024)])).map (fun s => (s.status, s.mem)) =
      some (.faulted (.dataAddressOutOfRange 1024), [(0, 0x07), (1, 1024)]) := by decide

/-! ### Arithmetic -/

-- V25
theorem test_add_imm_wraps :
    (after (start Word.max 0 1 0 [(0, 0x08), (1, 1)])).map (fun s => (s.acc, s.flag)) = some (0, 1) := by decide

-- V28
theorem test_add_mem_wraps :
    (after (start 0x8000000000000000 0 0 0 [(0, 0x09), (1, 300), (300, 0x8000000000000000)])).map (·.acc) = some 0 := by
  decide

-- V29
theorem test_sub_imm_wraps : (after (start 0 0 0 0 [(0, 0x0A), (1, 1)])).map (·.acc) = some Word.max := by decide

-- V31: not the difference the other way round
theorem test_sub_mem :
    (after (start 3 0 0 0 [(0, 0x0B), (1, 300), (300, 5)])).map (·.acc) = some 0xFFFFFFFFFFFFFFFE := by decide

-- V33
theorem test_inc_acc : (after (start Word.max 5 0 0 [(0, 0x0C)])).map (fun s => (s.acc, s.ix)) = some (0, 5) := by decide

-- V34
theorem test_inc_index : (after (start 5 Word.max 0 0 [(0, 0x0D)])).map (fun s => (s.acc, s.ix)) = some (5, 0) := by decide

-- V35
theorem test_dec_acc : (after (start 0 5 0 0 [(0, 0x0E)])).map (fun s => (s.acc, s.ix)) = some (Word.max, 5) := by decide

-- V36
theorem test_dec_index : (after (start 8 0 0 0 [(0, 0x0F)])).map (fun s => (s.acc, s.ix)) = some (8, Word.max) := by decide

/-! ### Compare and branch -/

-- V37, V38
theorem test_compare_mem :
    (after (start 7 0 1 0 [(0, 0x10), (1, 300), (300, 8)])).map (·.flag) = some 0 ∧
    (after (start 7 0 0 0 [(0, 0x10), (1, 300), (300, 7)])).map (·.flag) = some 1 := by decide

-- V40, V41
theorem test_compare_imm :
    (after (start Word.max 0 0 0 [(0, 0x11), (1, Word.max)])).map (·.flag) = some 1 ∧
    (after (start 3 0 1 0 [(0, 0x11)])).map (·.flag) = some 0 := by decide

-- V43: compares M[M[40]], not M[40]
theorem test_compare_indirect :
    (after (start 50 0 0 0 [(0, 0x12), (1, 40), (40, 50), (50, 9)])).map (·.flag) = some 0 ∧
    (after (start 9 0 0 0 [(0, 0x12), (1, 40), (40, 50), (50, 9)])).map (·.flag) = some 1 := by decide

-- V44
theorem test_compare_indirect_fault :
    (after (start 0 0 1 0 [(0, 0x12), (1, 40), (40, 9999)])).map (fun s => (s.status, s.flag)) =
      some (.faulted (.dataAddressOutOfRange 9999), 1) := by decide

-- V45
theorem test_jump : (after (start 0 0 0 0 [(0, 0x13), (1, 6)])).map (·.pc) = some 6 := by decide

-- V47, V48
theorem test_jump_if_equal :
    (after (start 0 0 1 0 [(0, 0x14), (1, 20)])).map (fun s => (s.pc, s.flag)) = some (20, 1) ∧
    (after (start 0 0 0 0 [(0, 0x14), (1, 20)])).map (·.pc) = some 2 := by decide

-- V49, V50
theorem test_jump_if_not_equal :
    (after (start 0 0 0 0 [(0, 0x15), (1, 20)])).map (fun s => (s.pc, s.flag)) = some (20, 0) ∧
    (after (start 0 0 1 0 [(0, 0x15), (1, 20)])).map (·.pc) = some 2 := by decide

/-! ### Bitwise and shift -/

-- V53
theorem test_and_imm : (after (start 0xF0F 0 0 0 [(0, 0x16), (1, 0x0FF)])).map (·.acc) = some 0x00F := by decide

-- V55
theorem test_and_mem : (after (start 0xFF 0 0 0 [(0, 0x17), (1, 40), (40, 0x3C)])).map (·.acc) = some 0x3C := by decide

-- V56
theorem test_xor_imm :
    (after (start 0x1234 0 0 0 [(0, 0x18), (1, Word.max)])).map (·.acc) = some 0xFFFFFFFFFFFFEDCB := by decide

-- V57
theorem test_xor_mem : (after (start 0xF0F 0 0 0 [(0, 0x19), (1, 40), (40, 0xFFF)])).map (·.acc) = some 0x0F0 := by decide

-- V58
theorem test_or_imm : (after (start 0xF00 0 0 0 [(0, 0x1A), (1, 0x0F)])).map (·.acc) = some 0xF0F := by decide

-- V59
theorem test_or_mem : (after (start 0x01 0 0 0 [(0, 0x1B), (1, 40), (40, 0x80)])).map (·.acc) = some 0x81 := by decide

-- V62
theorem test_shift_left : (after (start 0x3 0 0 0 [(0, 0x1C), (1, 63)])).map (·.acc) = some 0x8000000000000000 := by decide

-- V63, V64: the amount is not masked
theorem test_shift_left_oversize :
    (after (start 1 0 0 0 [(0, 0x1C), (1, 64)])).map (·.acc) = some 0 ∧
    (after (start 1 0 0 0 [(0, 0x1C), (1, 65)])).map (·.acc) = some 0 := by decide

-- V66: logical
theorem test_shift_right : (after (start 0x8000000000000000 0 0 0 [(0, 0x1D), (1, 63)])).map (·.acc) = some 1 := by decide

-- V67, V68
theorem test_shift_right_oversize :
    (after (start Word.max 0 0 0 [(0, 0x1D), (1, 64)])).map (·.acc) = some 0 ∧
    (after (start Word.max 0 0 0 [(0, 0x1D), (1, Word.max)])).map (·.acc) = some 0 := by decide

/-! ### I/O, control, debug -/

-- V71: zero-extended
theorem test_char_in :
    (after { start Word.max 0 0 0 [(0, 0x1E)] with input := [0xFF, 0x41] }).map (fun s => (s.acc, s.input)) =
      some (0xFF, [0x41]) := by decide

-- V72: no step
theorem test_char_in_waits : faultOf (step (start 0 0 0 0 [(0, 0x1E)])) = some .waitingForInput := by decide

-- V73
theorem test_char_out :
    (after (start 0x141 0 0 0 [(0, 0x1F)])).map (fun s => (s.acc, s.output)) = some (0x141, [0x41]) := by decide

-- V75
theorem test_halt :
    (after (start 0 0 0 10 [(10, 0x20)])).map (fun s => (s.status, s.pc)) = some (.halted, 12) := by decide

-- V76
theorem test_inspect :
    after (start 7 0 1 4 [(4, 0x21)]) =
      some { start 7 0 1 6 [(4, 0x21)] with
        dbg := [{ acc := 7, ix := 0, pc := 6, flag := 1, mem := [(4, 0x21)], labels := [] }] } := by decide

/-! ### Decoding: words written out from R51, family by family -/

theorem test_decode_load_store :
    [decode 0x01 7, decode 0x02 7, decode 0x03 7, decode 0x04 7, decode 0x05 7, decode 0x06 7, decode 0x07 7] =
      [.instr (.loadImmediate 7), .instr (.loadDirect 7), .instr (.loadIndirect 7), .instr (.loadIndexed 7),
       .instr (.loadIndexImmediate 7), .instr (.moveAccToIndex 7), .instr (.store 7)] := by decide

theorem test_decode_arithmetic :
    [decode 0x08 7, decode 0x09 7, decode 0x0A 7, decode 0x0B 7, decode 0x0C 7, decode 0x0D 7, decode 0x0E 7,
      decode 0x0F 7] =
      [.instr (.addImm 7), .instr (.addMem 7), .instr (.subImm 7), .instr (.subMem 7), .instr (.incAcc 7),
       .instr (.incIndex 7), .instr (.decAcc 7), .instr (.decIndex 7)] := by decide

theorem test_decode_compare_branch :
    [decode 0x10 7, decode 0x11 7, decode 0x12 7, decode 0x13 7, decode 0x14 7, decode 0x15 7] =
      [.instr (.compareMem 7), .instr (.compareImm 7), .instr (.compareIndirect 7), .instr (.jump 7),
       .instr (.jumpIfEqual 7), .instr (.jumpIfNotEqual 7)] := by decide

theorem test_decode_bitwise_shift :
    [decode 0x16 7, decode 0x17 7, decode 0x18 7, decode 0x19 7, decode 0x1A 7, decode 0x1B 7, decode 0x1C 7,
      decode 0x1D 7] =
      [.instr (.andImm 7), .instr (.andMem 7), .instr (.xorImm 7), .instr (.xorMem 7), .instr (.orImm 7),
       .instr (.orMem 7), .instr (.shiftLeft 7), .instr (.shiftRight 7)] := by decide

theorem test_decode_io_control :
    [decode 0x1E 7, decode 0x1F 7, decode 0x20 7, decode 0x21 7] =
      [.instr (.charIn 7), .instr (.charOut 7), .instr (.halt 7), .instr (.inspect 7)] := by decide

-- R49: all 64 bits are compared
theorem test_decode_high_bits :
    decode 0x0100000000000001 7 = .unknown 0x0100000000000001 ∧ decode 0x22 7 = .unknown 0x22 := by decide

-- store 0x123 as the table numbers its bits: the operand word is bits 127 to 64
theorem test_decode_table_word :
    decodeTableWord 128 0x0000000000000123_0000000000000007 = some (.store 0x123) ∧
    decodeTableWord 64 0x20 = some (.halt 0) ∧ decodeTableWord 64 0x22 = none := by decide

theorem test_decode_truncated : decodeWords [0x01] = .error (.truncated 1) := by rfl

-- a placed instruction is what the next step after reset runs
theorem test_with_fetch_word :
    (after (State.reset.withFetchWord 128 0x0000000000000009_0000000000000001)).map (fun s => (s.acc, s.pc)) =
      some (9, 2) := by decide

theorem test_with_fetch_word_char_in : (after (State.reset.withFetchWord 64 0x1E)).map (·.pc) = some 2 := by decide

/-! ### The checks refuse -/

theorem test_wf_accepts_every_operand : (Instr.incAcc Word.max).wf = true := by decide
theorem test_toolchain_form_refuses : (Instr.incAcc 5).toolchainForm = false ∧ (Instr.addImm 5).toolchainForm = true := by
  decide
theorem test_opcode_map_refuses : opcodeMapOk (fun _ => 0) = false := by decide
theorem test_opcode_map_accepts : opcodeMapOk OpName.opcode = true := by decide
theorem test_mem_words_refuses :
    memWordsOk 1 = false ∧ memWordsOk (2 ^ 64 + 1) = false ∧ memWordsOk 2 = true ∧ memWordsOk (2 ^ 64) = true := by decide
theorem test_params_refuse :
    { Params.default with memWords := 1 }.ok = false ∧
      { Params.default with opcode := OpcodeMap.ofFun fun _ => 0 }.ok = false ∧ Params.default.ok = true := by decide
theorem test_toolchain_refuses :
    (Toolchain.default '#' '&' 'o').ok = false ∧ (Toolchain.default 'B' 'B' 'o').ok = false ∧
      { Toolchain.default 'B' '&' 'o' with bareBase := 17 }.ok = false ∧ (Toolchain.default 'B' '&' 'o').ok = true := by
  decide
theorem test_memory_wf_refuses :
    Memory.wf 1024 [(1, 0)] = false ∧ Memory.wf 1024 [(2, 1), (1, 1)] = false ∧
      Memory.wf 1024 [(1, 1), (1, 2)] = false ∧ Memory.wf 1024 [(1024, 1)] = false ∧
      Memory.wf 1024 [(0, 1), (1023, 1)] = true := by decide
theorem test_labels_wf_refuses :
    LabelTable.wf 1024 [(1024, ['a'])] = false ∧ LabelTable.wf 1024 [(3, [])] = false ∧
      LabelTable.wf 1024 [(3, ['a']), (3, ['b'])] = false ∧ LabelTable.wf 1024 [(0, ['a']), (1023, ['b'])] = true := by
  decide
theorem test_image_wf_refuses :
    Image.wf 1024 { words := [(1024, 1)], labels := [] } = false ∧
      Image.wf 1024 { words := [], labels := [(3, [])] } = false ∧
      Image.wf 1024 { words := [(1023, 1)], labels := [(0, ['a'])] } = true := by decide

/-! ### Other parameters (R5) -/

/-- Another injective OPCODE map than the default: the same numbers from 0x100 on. -/
def otherOpcode (n : OpName) : Word := n.opcode + 0x100

/-- A machine with every parameter away from its default: N = 16, ENTRY = 4, the policies `anyValue`. -/
def otherParams : Params where
  memWords := 16
  opcode := OpcodeMap.ofFun otherOpcode
  entry := 4
  shiftOversize := .anyValue
  eofPolicy := .anyValue
  resetAcc := 7
  resetIx := 8
  resetFlag := 1

/-- The machine of `otherParams` at its start, with a memory. -/
def otherStart (mem : Memory) : State := { State.resetWith otherParams [] with mem := mem }

-- R143: the first fetch is at ENTRY; R52: under its own map 0x108 is add-imm and 0x08 is unknown
theorem test_other_entry_and_opcode :
    (after (otherStart [(4, 0x108), (5, 3)])).map (fun s => (s.acc, s.pc)) = some (10, 6) ∧
    (after (otherStart [(4, 0x08), (5, 3)])).map (fun s => (s.acc, s.diag)) =
      some (7, [{ addr := 4, opcode := 0x08 }]) := by decide

-- R28, R70, R71: the range checks follow N
theorem test_other_size :
    (after (otherStart [(4, 0x102), (5, 16)])).map (·.status) = some (.faulted (.dataAddressOutOfRange 16)) ∧
    (after { otherStart [] with pc := 16 }).map (·.status) = some (.faulted .pcOutOfRange) ∧
    (after { otherStart [] with pc := 15 }).map (·.status) = some (.faulted .operandFetchOutOfRange) := by decide

-- I1, I9: a free value is drawn, and the run goes on
theorem test_other_policies :
    (after (otherStart [(4, 0x11C), (5, 64)])).map (fun s => (s.draws, s.pc, s.status)) = some (1, 6, .running) ∧
    (after (otherStart [(4, 0x11E)])).map (fun s => (s.draws, s.pc, s.status)) = some (1, 6, .running) ∧
    (after (otherStart [(4, 0x11C), (5, 4)])).map (fun s => (s.acc, s.draws)) = some (0x70, 0) := by decide

/-! ### The resolver and the load -/

/-- A toolchain whose prefixes are for the tests only; the spec gives none (D21). -/
def testTools : Toolchain := Toolchain.default 'B' '&' 'o'

-- R62: `#5`, a label at 5 and a bare 5 all give 5; E4: a label at address 0 is a real 0
theorem test_resolve_forms :
    resolve testTools [] ['#', '5'] = .ok 5 ∧ resolve testTools [(5, ['x'])] ['x'] = .ok 5 ∧
    resolve testTools [] ['5'] = .ok 5 ∧ resolve testTools [(0, ['s']), (9, ['s'])] ['s'] = .ok 0 :=
  ⟨rfl, rfl, rfl, rfl⟩

-- R62, R65: the bases, and characters after the digits
theorem test_resolve_bases :
    resolve testTools [] ['B', '1', '0', '1', '2'] = .ok 5 ∧ resolve testTools [] ['&', '1', 'F'] = .ok 0x1F ∧
    resolve testTools [] ['o', '1', '7', '8'] = .ok 15 :=
  ⟨rfl, rfl, rfl⟩

-- R66
theorem test_resolve_fails :
    resolve testTools [] ['x'] = .error (.malformed ['x']) ∧
    resolve testTools [] ['#'] = .error (.malformed ['#']) :=
  ⟨rfl, rfl⟩

-- I2: where duplicate labels are refused, the load is; I20: another base for a bare number
theorem test_other_toolchain :
    loadSource Params.default { testTools with duplicates := .refuse } [(0, ['s']), (9, ['s'])] [] [] =
      .error .duplicateLabels ∧
    resolve { testTools with bareBase := 16 } [] ['1', 'F'] = .ok 0x1F :=
  ⟨rfl, rfl⟩

-- R57, R58, R142: `load-immediate #5` at 0 and `halt` at 2
theorem test_load_source :
    loadSource Params.default testTools [] [.pair 0 .loadImmediate ['#', '5'], .pair 2 .halt []] [0x41] =
      .ok { State.reset with mem := [(0, 1), (1, 5), (2, 0x20)], input := [0x41] } := rfl

/-! ### Witnesses: states and operands that meet the hypotheses of the statements, clause by clause -/

theorem witness_StepRunsTheDecodedInstruction :
    Fetches (start 0 0 0 1022 [(1022, 0x08), (1023, 7)]) 0x08 7 ∧
      (start 0 0 0 1022 [(1022, 0x08), (1023, 7)]).decode 0x08 7 = .instr (.addImm 7) ∧ (Instr.addImm 7).wf = true ∧
      (start 0 0 0 1022 [(1022, 0x08), (1023, 7)]).params.memWords < 2 ^ 64 := by decide

/-- 0x22 is no opcode of the default map (R53). -/
theorem unknown_0x22 (n : OpName) : Params.default.opcode.of n ≠ 0x22 :=
  (by decide : ∀ n ∈ OpName.all, Params.default.opcode.of n ≠ 0x22) n n.mem_all

theorem witness_UnknownOpcodeIsReportedAndSkipped :
    Fetches (start 0 0 0 0 [(0, 0x22)]) 0x22 0 ∧ ∀ n : OpName, (start 0 0 0 0 [(0, 0x22)]).params.opcode.of n ≠ 0x22 :=
  ⟨by decide, unknown_0x22⟩

theorem witness_PcOutOfRangeEndsTheRun :
    (start 0 0 0 1024 []).status = .running ∧ State.reset.params.memWords ≤ (start 0 0 0 1024 []).pc.toNat := by decide

theorem witness_OperandFetchOutOfRangeEndsTheRun :
    (start 0 0 0 1023 []).status = .running ∧ (start 0 0 0 1023 []).pc.toNat + 1 = State.reset.params.memWords := by decide

theorem witness_OnlyARunningCoreTakesAStep :
    { State.reset with status := .halted }.status = .halted ∧
    { State.reset with status := .faulted .pcOutOfRange }.status = .faulted .pcOutOfRange ∧
    { State.reset with status := .refused }.status = .refused := by decide

theorem witness_RunningCoreStepsUnlessItWaitsForInput : State.reset.status = .running := by decide

theorem witness_DecodeInvertsEncodeUnderEveryOpcodeMap :
    Function.Injective otherOpcode ∧ (Instr.store 5).wf = true ∧
      decodeWith otherOpcode 0x107 5 = .instr (.store 5) ∧ decodeWith otherOpcode 0x07 5 = .unknown 0x07 ∧
      (otherStart []).params.opcode = OpcodeMap.ofFun otherOpcode :=
  ⟨fun a b => (by decide : ∀ a ∈ OpName.all, ∀ b ∈ OpName.all, otherOpcode a = otherOpcode b → a = b)
      a a.mem_all b b.mem_all, by decide, by decide, by decide, rfl⟩

theorem witness_IgnoredOperandWordHasNoEffect : OpName.halt.operandUse = .ignored := by decide

/-! The last address of memory and the first one outside it, for the two clauses on a direct address. -/

theorem witness_LoadDirectLoadsTheAddressedWord :
    (1023 : Word).toNat < State.reset.params.memWords ∧ State.reset.params.memWords ≤ (1024 : Word).toNat := by decide

theorem witness_StoreWritesExactlyTheAddressedWord :
    (1023 : Word).toNat < State.reset.params.memWords ∧ State.reset.params.memWords ≤ (1024 : Word).toNat ∧
      (start 5 0 0 0 [(0, 0x07), (1, 300)]).mem.wf 1024 = true := by decide

theorem witness_AddsWrapModulo :
    (1023 : Word).toNat < State.reset.params.memWords ∧ State.reset.params.memWords ≤ (1024 : Word).toNat := by decide

theorem witness_SubtractsWrapModulo :
    (1023 : Word).toNat < State.reset.params.memWords ∧ State.reset.params.memWords ≤ (1024 : Word).toNat := by decide

theorem witness_CompareDirectAndImmediateWriteEquality :
    (1023 : Word).toNat < State.reset.params.memWords ∧ State.reset.params.memWords ≤ (1024 : Word).toNat := by decide

theorem witness_BitwiseMemoryFormsActBitByBit :
    (1023 : Word).toNat < State.reset.params.memWords ∧ State.reset.params.memWords ≤ (1024 : Word).toNat := by decide

/-! A pointer at the last address that holds the last address, one that holds the first address outside, and a pointer
outside: the three clauses of the indirect forms. -/

theorem witness_LoadIndirectFollowsThePointer :
    ((1023 : Word).toNat < State.reset.params.memWords ∧ (Memory.read [(1023, 1023)] 1023).toNat < State.reset.params.memWords) ∧
    ((1023 : Word).toNat < State.reset.params.memWords ∧ State.reset.params.memWords ≤ (Memory.read [(1023, 1024)] 1023).toNat) ∧
    State.reset.params.memWords ≤ (1024 : Word).toNat := by decide

theorem witness_CompareIndirectWritesEquality :
    ((1023 : Word).toNat < State.reset.params.memWords ∧ (Memory.read [(1023, 1023)] 1023).toNat < State.reset.params.memWords) ∧
    ((1023 : Word).toNat < State.reset.params.memWords ∧ State.reset.params.memWords ≤ (Memory.read [(1023, 1024)] 1023).toNat) ∧
    State.reset.params.memWords ≤ (1024 : Word).toNat := by decide

theorem witness_LoadIndexedAddsTheIndexModulo :
    (Word.max.toNat + (1 : Word).toNat) % 2 ^ 64 < State.reset.params.memWords ∧
    State.reset.params.memWords ≤ ((1023 : Word).toNat + (1 : Word).toNat) % 2 ^ 64 := by decide

theorem witness_StoredWordIsSeenByEveryLoadForm :
    Memory.wf 1024 [(10, 1023)] = true ∧ (1023 : Word).toNat < State.reset.params.memWords ∧
    exec (.store 1023) (start 5 3 0 0 [(10, 1023)]) = .next (start 5 3 0 0 [(10, 1023), (1023, 5)]) ∧
    Memory.read [(10, 1023), (1023, 5)] (10 : Word).toNat = 1023 ∧
    (1020 : Word) + (start 5 3 0 0 [(10, 1023), (1023, 5)]).ix = 1023 :=
  ⟨by decide, by decide, rfl, by decide, by decide⟩

theorem witness_StoreIsSeenByTheNextFetch :
    State.reset.params.ok = true ∧ Memory.wf State.reset.params.memWords [(0, 0x07), (1, 2)] = true ∧
      FetchesInstr (start 0x20 0 0 0 [(0, 0x07), (1, 2)]) .store 2 ∧
      (2 : Word).toNat < State.reset.params.memWords ∧ (0 : Word).toNat + 3 < State.reset.params.memWords := by decide

theorem witness_BranchesFollowTheFlagAlone : (start 0 0 0 0 []).flag = 0 ∧ (start 0 0 1 0 []).flag = 1 := by decide

theorem witness_JumpTargetIsCheckedByTheNextFetch :
    State.reset.params.ok = true ∧
    FetchesInstr (start 0 0 0 0 [(0, 0x13), (1, 1022)]) .jump 1022 ∧ (1022 : Word).toNat + 1 < State.reset.params.memWords ∧
    FetchesInstr (start 0 0 0 0 [(0, 0x13), (1, 1023)]) .jump 1023 ∧ (1023 : Word).toNat + 1 = State.reset.params.memWords ∧
    FetchesInstr (start 0 0 0 0 [(0, 0x13), (1, 1024)]) .jump 1024 ∧ State.reset.params.memWords ≤ (1024 : Word).toNat := by
  decide

/-- A run of one step, of an increment, from a state with `FLAG` set. -/
theorem witness_FlagIsolation_run :
    nextOf (runSteps 1 (start 0 0 1 0 [(0, 0x0C)])) = some (start 1 0 1 2 [(0, 0x0C)]) ∧
    ∀ (j : Nat) (u : State), j < 1 → runSteps j (start 0 0 1 0 [(0, 0x0C)]) = .next u →
      ¬ AboutToExecute u [.compareMem, .compareImm, .compareIndirect] := by
  refine ⟨by decide, ?_⟩
  rintro j u hj hu ⟨n, hn, opd, -, -, hop, -⟩
  obtain rfl : j = 0 := by omega
  cases hu
  exact absurd hop ((by decide : ∀ n ∈ [OpName.compareMem, .compareImm, .compareIndirect],
    (start 0 0 1 0 [(0, 0x0C)]).fetchOp ≠ Params.default.opcode.of n) n hn)

theorem witness_FlagIsolation_reads : (Instr.addImm 5).name ∉ [OpName.jumpIfEqual, .jumpIfNotEqual, .inspect] := by decide

/-- The highest opcode word, in the last pair of memory. -/
theorem witness_FlagIsolation_unknown :
    Fetches (start 0 0 1 1022 [(1022, Word.max)]) Word.max 0 ∧
      ∀ n : OpName, (start 0 0 1 1022 [(1022, Word.max)]).params.opcode.of n ≠ Word.max :=
  ⟨by decide, fun n => (by decide : ∀ n ∈ OpName.all, Params.default.opcode.of n ≠ Word.max) n n.mem_all⟩

theorem witness_ShiftsMultiplyAndDivideByPowersOfTwo :
    (63 : Word).toNat < 64 ∧ 64 ≤ (64 : Word).toNat ∧ State.reset.params.shiftOversize = .zero ∧
      (otherStart []).params.shiftOversize = .anyValue := by decide

theorem witness_CharInTakesOneByteOrNoStep :
    ({ State.reset with input := [0xFF, 0x41] } : State).input = 0xFF :: [0x41] ∧ State.reset.input = [] ∧
      State.reset.params.eofPolicy = .hold ∧ State.reset.params.ok = true ∧ (otherStart []).input = [] ∧
      (otherStart []).params.eofPolicy = .anyValue ∧
      FetchesInstr (start 0 0 0 0 [(0, 0x1E), (1, 7)]) .charIn 7 := by decide

theorem witness_HaltStopsTheRun : FetchesInstr (start 0 0 0 1022 [(1022, 0x20)]) .halt 0 := by decide

theorem witness_InspectHandsOverASnapshot : FetchesInstr (start 7 0 1 4 [(4, 0x21)]) .inspect 0 := by decide

/-- One step for each statement about a step that answers a next state: an unknown opcode, a char-in, a char-out and an
inspect move one stream each. -/
theorem witness_StreamsOnlyGrow :
    (after (start 0 0 0 0 [])).isSome ∧ (after { start 0 0 0 0 [(0, 0x1E)] with input := [7] }).isSome ∧
    (after (start 0 0 0 0 [(0, 0x1F)])).isSome ∧ (after (start 0 0 0 0 [(0, 0x21)])).isSome := by decide

theorem witness_InstructionsWriteOnlyWhatTheTableSays :
    exec (.store 5) (start 9 0 0 0 []) = .next (start 9 0 0 0 [(5, 9)]) ∧
    exec (.loadImmediate 5) (start 9 0 0 0 []) = .next (start 5 0 0 0 []) ∧
    exec (.loadIndexImmediate 5) (start 9 0 0 0 []) = .next (start 9 5 0 0 []) ∧
    exec (.jump 5) (start 9 0 0 0 []) = .next (start 9 0 0 5 []) ∧
    exec (.compareImm 9) (start 9 0 0 0 []) = .next (start 9 0 1 0 []) ∧
    exec (.halt 0) (start 9 0 0 0 []) = .next { start 9 0 0 0 [] with status := .halted } :=
  ⟨rfl, rfl, rfl, rfl, rfl, rfl⟩

/-- One instruction for each clause, held against the statement's own lists; store, which writes memory and does not read
it, for the memory clause. -/
theorem witness_StateNotReadDoesNotMatter :
    (Instr.charIn 0).name ∈ [OpName.loadImmediate, .loadDirect, .loadIndirect, .loadIndexed, .loadIndexImmediate,
      .incIndex, .decIndex, .jump, .jumpIfEqual, .jumpIfNotEqual, .charIn, .halt] ∧
    (Instr.moveAccToIndex 0).name ∉ [OpName.loadIndexed, .incIndex, .decIndex, .inspect] ∧
    (Instr.jump 5).name ≠ .inspect ∧
    (Instr.compareImm 5).name ∉ [OpName.jumpIfEqual, .jumpIfNotEqual, .inspect] ∧
    (Instr.store 5).name ∉ [OpName.loadDirect, .loadIndirect, .loadIndexed, .addMem, .subMem, .compareMem,
      .compareIndirect, .andMem, .xorMem, .orMem, .inspect] ∧
    (Instr.charOut 0).name ≠ .charIn := by decide

theorem witness_FaultingStepIsPrecise :
    (after (start 4 0 0 0 [(0, 0x02), (1, 1024)])).map (·.status) = some (.faulted (.dataAddressOutOfRange 1024)) ∧
    (after (start 4 0 0 1023 [])).map (·.status) = some (.faulted .operandFetchOutOfRange) ∧
    (after (start 4 0 0 1024 [])).map (·.status) = some (.faulted .pcOutOfRange) := by decide

theorem witness_RunEndsOnlyByHaltOrARangeFault :
    (after (start 0 0 0 0 [(0, 0x20)])).map (·.status) = some .halted := by decide

theorem witness_PcAfterAStep :
    State.reset.params.ok = true ∧ State.reset.params.memWords < 2 ^ 64 ∧
    (FetchesInstr (start 0 0 1 0 [(0, 0x14), (1, 20)]) .jumpIfEqual 20 ∧
      (after (start 0 0 1 0 [(0, 0x14), (1, 20)])).isSome) ∧
    (FetchesInstr (start 0 0 0 0 [(0, 0x14), (1, 20)]) .jumpIfEqual 20 ∧
      (after (start 0 0 0 0 [(0, 0x14), (1, 20)])).isSome) := by decide

theorem witness_MemoryIsDeterminedByItsWords :
    Memory.wf 1024 [(0, 1), (1023, 2)] = true ∧ Memory.wf 1024 (Memory.write [(0, 1), (5, 3), (1023, 2)] 5 0) = true ∧
      Memory.write [(0, 1), (5, 3), (1023, 2)] 5 0 = [(0, 1), (1023, 2)] := by decide

theorem witness_LoadLeavesTheImageInMemory :
    Image.wf Params.default.memWords { words := [(1023, 1), (0, 2)], labels := [(0, ['a'])] } = true ∧
      ([(1023, (1 : Word)), (0, 2)].map Prod.fst).Nodup := by decide

theorem witness_LabelRoundTrip :
    memWordsOk 1024 = true ∧ (LabelTable.wf 1024 [(0, ['s']), (9, ['s'])] = true ∧ (0, ['s']) ∈ [(0, ['s']), (9, ['s'])] ∧
      (∀ b, b < 0 → (b, ['s']) ∉ [(0, ['s']), (9, ['s'])]) ∧
      ['s'].head? ∉ [some '#', some testTools.bin, some testTools.hex, some testTools.oct]) ∧
    (LabelTable.wf 1024 [(0, ['a']), (1023, ['s'])] = true ∧ (1023, ['s']) ∈ [(0, ['a']), (1023, ['s'])] ∧
      ∀ b, b < 1023 → (b, ['s']) ∉ [(0, ['a']), (1023, ['s'])]) := by
  refine ⟨by decide, ⟨by decide, by decide, by omega, by decide⟩, by decide, by decide, ?_⟩
  intro b hb
  simp
  omega

/-- The text `10x` in bases 2, 8 and 10 and the text `F` in base 16, with a toolchain that meets its constraints; `10x`
begins with no prefix and is no label. -/
theorem witness_LiteralsResolveToTheirValues :
    [(1, false), (0, false)] ≠ ([] : List (Nat × Bool)) ∧ (∀ d ∈ [(1, false), (0, false)], d.1 < 2) ∧
    StartsWithNoDigit 10 ['x'] ∧ StartsWithNoDigit 2 ['x'] ∧ StartsWithNoDigit 8 ['x'] ∧
    (∀ d ∈ [(15, true)], d.1 < 16) ∧ StartsWithNoDigit 16 [] ∧ testTools.ok = true ∧ 10 = testTools.bareBase ∧
    (digitChars [(1, false), (0, false)] ++ ['x']).head? ∉
      [some '#', some testTools.bin, some testTools.hex, some testTools.oct] ∧
    ∀ a, (a, digitChars [(1, false), (0, false)] ++ ['x']) ∉ ([] : LabelTable) := by
  have hx : ∀ base, base ≤ 16 → StartsWithNoDigit base ['x'] := by
    rintro base hb c ⟨⟩ d hd upper
    have hd : d < 16 := by omega
    cases upper <;> interval_cases d <;> decide
  exact ⟨by decide, by decide, hx 10 (by decide), hx 2 (by decide), hx 8 (by decide), by decide, by rintro c ⟨⟩,
    by decide, by decide, by decide, by simp⟩

/-- No text at all after each prefix; a bare token `x`; and a source that fails and one that loads. -/
theorem witness_ResolutionFailureAbortsTheLoad :
    (∀ base, StartsWithNoDigit base []) ∧ testTools.ok = true ∧
    (['x'].head? ∉ [some '#', some testTools.bin, some testTools.hex, some testTools.oct] ∧
      (∀ a, (a, ['x']) ∉ ([] : LabelTable)) ∧ StartsWithNoDigit testTools.bareBase ['x']) ∧
    OpName.jump.operandUse ≠ .ignored ∧
    assembleItem Params.default.opcode testTools [] (.pair 0 .jump ['x']) = .error (.malformed ['x']) ∧
    loadSource Params.default testTools [] [.pair 0 .loadImmediate ['#', '5']] [] =
      .ok { State.reset with mem := [(0, 1), (1, 5)] } := by
  refine ⟨by rintro base c ⟨⟩, by decide, ⟨by decide, by simp, ?_⟩, by decide, rfl, rfl⟩
  rintro c ⟨⟩ d hd upper
  have hd : d < 10 := hd
  cases upper <;> interval_cases d <;> decide

theorem witness_ResetMeetsTheInvariant : otherParams.ok = true := by decide

/-- A store, from a state with a report and a snapshot behind it. -/
theorem witness_StepKeepsTheInvariant :
    State.Inv { start 9 0 0 0 [(0, 0x07), (1, 1023)] with
      diag := [{ addr := 1022, opcode := 0x22 }]
      dbg := [{ acc := 0, ix := 0, pc := 2, flag := 0, mem := [(1023, 1)], labels := [] }] } ∧
    (after (start 9 0 0 0 [(0, 0x07), (1, 1023)])).isSome := by
  refine ⟨⟨by decide, by decide, by decide, ?_, ?_, trivial⟩, by decide⟩
  · intro r hr
    obtain rfl := List.mem_singleton.mp hr
    exact ⟨by decide, unknown_0x22⟩
  · intro d hd
    obtain rfl := List.mem_singleton.mp hd
    exact ⟨by decide, by decide, 0, by decide, by decide⟩

theorem witness_LoadedRunsKeepTheInvariant :
    Params.default.ok = true ∧
    State.load Params.default { words := [(0, 0x20)], labels := [] } [7] = .ok { State.reset with mem := [(0, 0x20)], input := [7] } ∧
    nextOf (runSteps 1 { State.reset with mem := [(0, 0x20)], input := [7] }) =
      some { State.reset with mem := [(0, 0x20)], input := [7], pc := 2, status := .halted } := ⟨by decide, rfl, by decide⟩

end Sys2Proof.Tests
end

/-! PROOFS. The load-time resolver and the loading of a source (R61 to R67): what a digit character is, what the numeric
parse reads, what each case of the resolver answers, and from these O43, O44 and O45. -/

namespace Sys2Proof.Machine

/-! ### Digits (R65; log entry 10) -/

theorem digitValue_digitChar (upper : Bool) {d : Nat} (hd : d < 16) : digitValue (digitChar upper d) = some d := by
  cases upper <;> interval_cases d <;> rfl

/-- Every character with a digit value is what writes that value, in one of the two cases of letters. -/
theorem eq_digitChar_of_digitValue {c : Char} {d : Nat} (h : digitValue c = some d) : ∃ upper, c = digitChar upper d := by
  have of_toNat : ∀ n, n = c.toNat → c = Char.ofNat n := fun n hn => hn ▸ (Char.ofNat_toNat c).symm
  have le_iff : ∀ a b : Char, a ≤ b ↔ a.toNat ≤ b.toNat := fun _ _ => UInt32.le_iff_toNat_le
  simp only [digitValue, le_iff, Char.reduceToNat] at h
  split_ifs at h with h0 ha hA <;> obtain rfl := Option.some.inj h
  · have hlt : c.toNat - 48 < 10 := by omega
    have heq : Char.toNat '0' + (c.toNat - 48) = c.toNat := by simp only [Char.reduceToNat]; omega
    exact ⟨false, (of_toNat _ heq).trans (if_pos hlt).symm⟩
  · have hge : ¬ c.toNat - 97 + 10 < 10 := by omega
    have heq : Char.toNat 'a' + (c.toNat - 97 + 10 - 10) = c.toNat := by simp only [Char.reduceToNat]; omega
    exact ⟨false, (of_toNat _ heq).trans (if_neg hge).symm⟩
  · have hge : ¬ c.toNat - 65 + 10 < 10 := by omega
    have heq : Char.toNat 'A' + (c.toNat - 65 + 10 - 10) = c.toNat := by simp only [Char.reduceToNat]; omega
    exact ⟨true, (of_toNat _ heq).trans (if_neg hge).symm⟩

/-- Where no digit of the base begins the text, the run of digits is empty. -/
theorem digitRun_eq_nil {base : Nat} {text : List Char} (h : StartsWithNoDigit base text) : digitRun base text = [] := by
  cases text with
  | nil => rfl
  | cons c rest =>
    cases hv : digitValue c with
    | none => simp [digitRun, hv]
    | some d =>
      obtain ⟨upper, hc⟩ := eq_digitChar_of_digitValue hv
      have hd : ¬ d < base := fun hlt => h c rfl d hlt upper hc
      simp [digitRun, hv, hd]

/-- The run of digits is the written digits, and stops at the text that does not go on with one (R65, D23). -/
theorem digitRun_digitChars_append {base : Nat} (hbase : base ≤ 16) {ds : List (Nat × Bool)} {rest : List Char}
    (hds : ∀ d ∈ ds, d.1 < base) (hrest : StartsWithNoDigit base rest) :
    digitRun base (digitChars ds ++ rest) = ds.map Prod.fst := by
  induction ds with
  | nil => exact digitRun_eq_nil hrest
  | cons d ds ih =>
    obtain ⟨hd, hds⟩ := List.forall_mem_cons.mp hds
    have hv := digitValue_digitChar d.2 (hd.trans_le hbase)
    have hcons : digitChars (d :: ds) ++ rest = digitChar d.2 d.1 :: (digitChars ds ++ rest) := rfl
    simp [hcons, digitRun, hv, hd, ih hds]

/-- The number of a list of digits is Mathlib's, which takes the least significant digit first. -/
theorem digitsValue_eq_ofDigits (base : Nat) (ds : List Nat) : digitsValue base ds = Nat.ofDigits base ds.reverse := by
  rw [Nat.ofDigits_eq_foldr, List.foldr_reverse, digitsValue]
  congr 1
  funext v d
  simp [Nat.mul_comm, Nat.add_comm]

/-! ### The numeric parse (R65) -/

theorem parseNumber_of_noDigit {base : Nat} {text : List Char} (token : List Char) (h : StartsWithNoDigit base text) :
    parseNumber base text token = .error (.malformed token) := by
  rw [parseNumber, digitRun_eq_nil h]

theorem parseNumber_digitChars_append {base : Nat} (hbase : base ≤ 16) {ds : List (Nat × Bool)} {rest : List Char}
    (token : List Char) (hne : ds ≠ []) (hds : ∀ d ∈ ds, d.1 < base) (hrest : StartsWithNoDigit base rest) :
    parseNumber base (digitChars ds ++ rest) token =
      literalAnswer (Nat.ofDigits base (ds.map Prod.fst).reverse) token := by
  have hrun := digitRun_digitChars_append hbase hds hrest
  rw [← digitsValue_eq_ofDigits]
  cases ds with
  | nil => exact absurd rfl hne
  | cons d ds =>
    rw [List.map_cons] at hrun ⊢
    rw [parseNumber, hrun, literalAnswer]

/-! ### The cases of the resolver (R62) -/

/-- The constraints on the toolchain that its cases need: prefixes that differ, a base the digits serve (D21). -/
theorem toolchain_ok {p : Toolchain} (h : p.ok = true) :
    (p.bin ≠ '#' ∧ p.hex ≠ '#' ∧ p.oct ≠ '#') ∧ (p.bin ≠ p.hex ∧ p.bin ≠ p.oct ∧ p.hex ≠ p.oct) ∧ p.bareBase ≤ 16 := by
  simp only [Toolchain.ok, Bool.and_eq_true, bne_iff_ne, decide_eq_true_eq] at h
  tauto

section
variable {p : Toolchain} (labels : LabelTable) (rest : List Char)

theorem resolve_hash : resolve p labels ('#' :: rest) = parseNumber 10 rest ('#' :: rest) := rfl

theorem resolve_bin (h : p.ok = true) : resolve p labels (p.bin :: rest) = parseNumber 2 rest (p.bin :: rest) := by
  obtain ⟨⟨hbin, -, -⟩, -, -⟩ := toolchain_ok h
  simp [resolve, hbin]

theorem resolve_hex (h : p.ok = true) : resolve p labels (p.hex :: rest) = parseNumber 16 rest (p.hex :: rest) := by
  obtain ⟨⟨-, hhex, -⟩, ⟨hbinhex, -, -⟩, -⟩ := toolchain_ok h
  simp [resolve, hhex, hbinhex.symm]

theorem resolve_oct (h : p.ok = true) : resolve p labels (p.oct :: rest) = parseNumber 8 rest (p.oct :: rest) := by
  obtain ⟨⟨-, -, hoct⟩, ⟨-, hbinoct, hhexoct⟩, -⟩ := toolchain_ok h
  simp [resolve, hoct, hbinoct.symm, hhexoct.symm]

end

theorem resolve_eq_resolveBare {p : Toolchain} (labels : LabelTable) {token : List Char}
    (h : token.head? ∉ [some '#', some p.bin, some p.hex, some p.oct]) :
    resolve p labels token = resolveBare p labels token := by
  cases token with
  | nil => rfl
  | cons c rest =>
    simp only [List.head?_cons, List.mem_cons, Option.some.injEq, List.not_mem_nil, or_false, not_or] at h
    obtain ⟨hhash, hbin, hhex, hoct⟩ := h
    simp [resolve, hhash, hbin, hhex, hoct]

theorem lookupLabel_eq_none {labels : LabelTable} {token : List Char} (h : ∀ a, (a, token) ∉ labels) :
    lookupLabel labels token = none := by
  rw [lookupLabel, Option.map_eq_none_iff, List.find?_eq_none]
  rintro ⟨a, name⟩ hmem heq
  obtain rfl : name = token := by simpa using heq
  exact h a hmem

/-- A token that begins with no prefix and is no label is a bare number (R64). -/
theorem resolve_of_not_label {p : Toolchain} {labels : LabelTable} {token : List Char}
    (hhead : token.head? ∉ [some '#', some p.bin, some p.hex, some p.oct]) (hlabel : ∀ a, (a, token) ∉ labels) :
    resolve p labels token = parseNumber p.bareBase token token := by
  rw [resolve_eq_resolveBare labels hhead, resolveBare, lookupLabel_eq_none hlabel]

/-! ### The label table (R24, R63) -/

theorem LabelTable.wfFrom_cons {n lo : Nat} {x : Nat × List Char} {rest : LabelTable} :
    LabelTable.wfFrom n lo (x :: rest) = true ↔
      (lo ≤ x.1 ∧ x.1 < n) ∧ x.2 ≠ [] ∧ LabelTable.wfFrom n (x.1 + 1) rest = true := by
  simp [LabelTable.wfFrom, and_assoc]

/-- Every entry stands at or above the bound and inside memory. -/
theorem LabelTable.mem_of_wfFrom {n : Nat} {t : LabelTable} :
    ∀ {lo : Nat}, LabelTable.wfFrom n lo t = true → ∀ e ∈ t, lo ≤ e.1 ∧ e.1 < n := by
  induction t with
  | nil => exact fun _ _ h => (List.not_mem_nil h).elim
  | cons x rest ih =>
    intro lo h e he
    obtain ⟨⟨hlo, hn⟩, -, hrest⟩ := LabelTable.wfFrom_cons.mp h
    rcases List.mem_cons.mp he with rfl | he
    · exact ⟨hlo, hn⟩
    · obtain ⟨hlo', hn'⟩ := ih hrest e he
      exact ⟨by omega, hn'⟩

/-- The lookup in a rising table finds the lowest address that carries the name (R63). -/
theorem lookupLabel_eq_some {n a : Nat} {name : List Char} {t : LabelTable} :
    ∀ {lo : Nat}, LabelTable.wfFrom n lo t = true → (a, name) ∈ t → (∀ b, b < a → (b, name) ∉ t) →
      lookupLabel t name = some a := by
  induction t with
  | nil => exact fun _ h => (List.not_mem_nil h).elim
  | cons x rest ih =>
    intro lo h hmem hlow
    obtain ⟨-, -, hrest⟩ := LabelTable.wfFrom_cons.mp h
    obtain ⟨k, other⟩ := x
    by_cases hname : other = name
    · subst hname
      -- the first entry carries the name: a later one would stand above it, against `hlow`
      have hka : k = a := by
        rcases List.mem_cons.mp hmem with heq | hin
        · exact (congrArg Prod.fst heq).symm
        · have hlt : k < a := (LabelTable.mem_of_wfFrom hrest _ hin).1
          exact absurd (List.mem_cons_self ..) (hlow k hlt)
      simp [lookupLabel, hka]
    · have hin : (a, name) ∈ rest := (List.mem_cons.mp hmem).resolve_left fun heq => hname (congrArg Prod.snd heq).symm
      have hfind := ih hrest hin fun b hb hbin => hlow b hb (List.mem_cons_of_mem _ hbin)
      simpa [lookupLabel, hname] using hfind

/-- Settles O43: the lookup finds the lowest address, and an address of a legal memory is a word. -/
theorem labelRoundTrip : Obligations.LabelRoundTrip := by
  unfold Obligations.LabelRoundTrip
  intro p n labels a name hN hwf hmem hlow hhead
  have hfound : lookupLabel labels name = some a := lookupLabel_eq_some hwf hmem hlow
  refine ⟨BitVec.ofNat 64 a, by rw [resolve_eq_resolveBare labels hhead, resolveBare, hfound], ?_⟩
  have ha : a < n := (LabelTable.mem_of_wfFrom hwf _ hmem).2
  simp only [memWordsOk, Bool.and_eq_true, decide_eq_true_eq] at hN
  exact (BitVec.toNat_ofNat a 64).trans (Nat.mod_eq_of_lt (by omega))

/-- Settles O44: each case of the resolver is the numeric parse in its base, which reads the written digits. -/
theorem literalsResolveToTheirValues : Obligations.LiteralsResolveToTheirValues := by
  unfold Obligations.LiteralsResolveToTheirValues
  intro p labels base ds rest hne hds hrest
  have hparse := fun (token : List Char) (hbase : base ≤ 16) =>
    parseNumber_digitChars_append hbase token hne hds hrest
  refine ⟨?_, fun hok => ⟨?_, ?_, ?_, ?_⟩, rfl⟩
  · rintro rfl
    exact (resolve_hash ..).trans (hparse _ (by decide))
  · rintro rfl
    exact (resolve_bin _ _ hok).trans (hparse _ (by decide))
  · rintro rfl
    exact (resolve_hex _ _ hok).trans (hparse _ (by decide))
  · rintro rfl
    exact (resolve_oct _ _ hok).trans (hparse _ (by decide))
  · rintro rfl hhead hlabel
    obtain ⟨-, -, hbare⟩ := toolchain_ok hok
    exact (resolve_of_not_label hhead hlabel).trans (hparse _ hbare)

/-! ### The load of a source (R66) -/

/-- Where the opcode uses its operand, the operand word is what the token resolves to (R57, R61). -/
theorem assembleOperand_of_used {p : Toolchain} {labels : LabelTable} {n : OpName} (token : List Char)
    (h : n.operandUse ≠ .ignored) : assembleOperand p labels n token = resolve p labels token := if_neg h

theorem assembleItem_pair_error {opcode : OpcodeMap} {p : Toolchain} {labels : LabelTable} {n : OpName}
    {token : List Char} {e : ResolveError} (a : Nat) (hn : n.operandUse ≠ .ignored)
    (h : resolve p labels token = .error e) : assembleItem opcode p labels (.pair a n token) = .error e := by
  rw [assembleItem, assembleOperand_of_used token hn, h]

theorem loadSource_of_assemble_error {q : Params} {p : Toolchain} {labels : LabelTable} {src : List SourceItem}
    {e : ResolveError} (input : List Byte) (h : assemble q.opcode p labels src = .error e) :
    loadSource q p labels src input = .error (.unresolved e) := by
  rw [loadSource, h]

/-- One item that fails aborts the load with the error of an item that does (R66). -/
theorem loadSource_of_item_error {q : Params} {p : Toolchain} {labels : LabelTable} {src : List SourceItem}
    (input : List Byte) (h : ∃ item ∈ src, ∃ e, assembleItem q.opcode p labels item = .error e) :
    ∃ item ∈ src, ∃ e, assembleItem q.opcode p labels item = .error e ∧
      loadSource q p labels src input = .error (.unresolved e) := by
  rcases assemble_cases q.opcode p labels src with ⟨item, hitem, e, he, ha⟩ | ⟨hall, -⟩
  · exact ⟨item, hitem, e, he, loadSource_of_assemble_error input ha⟩
  · obtain ⟨item, hitem, e, he⟩ := h
    obtain ⟨ws, hws⟩ := hall item hitem
    exact absurd (hws.symm.trans he) (by simp)

/-- Settles O45: a text without a digit is malformed in every case of the resolver; a failing item aborts the load, so a
load that answers a state had none. -/
theorem resolutionFailureAbortsTheLoad : Obligations.ResolutionFailureAbortsTheLoad := by
  unfold Obligations.ResolutionFailureAbortsTheLoad
  intro q p labels src input
  refine ⟨fun rest h => (resolve_hash ..).trans (parseNumber_of_noDigit _ h), fun hok => ⟨?_, ?_, ?_, ?_⟩,
    fun a n token e hn h => assembleItem_pair_error a hn h, loadSource_of_item_error input, ?_⟩
  · exact fun rest h => (resolve_bin _ _ hok).trans (parseNumber_of_noDigit _ h)
  · exact fun rest h => (resolve_hex _ _ hok).trans (parseNumber_of_noDigit _ h)
  · exact fun rest h => (resolve_oct _ _ hok).trans (parseNumber_of_noDigit _ h)
  · exact fun token hhead hlabel h => (resolve_of_not_label hhead hlabel).trans (parseNumber_of_noDigit _ h)
  · intro s hload a n token hmem hn
    cases hres : resolve p labels token with
    | ok w => exact ⟨w, rfl⟩
    | error e =>
      obtain ⟨-, -, e', -, hfail⟩ :=
        loadSource_of_item_error input ⟨_, hmem, e, assembleItem_pair_error a hn hres⟩
      exact absurd (hfail.symm.trans hload) (by simp)

end Sys2Proof.Machine

/-! PROOFS. The execution cycle (R69 to R75): which instruction an opcode word selects, what a step does once its fetch
check has answered, and from these O1, O3 and O9. -/

namespace Sys2Proof

/-- The opcode word selects a name, or is outside the defined set, before any operand word is looked at (R74). -/
theorem decodeWith_cases (opcode : OpName → Word) (op : Word) :
    (∃ n, opcode n = op ∧ ∀ opd, decodeWith opcode op opd = .instr (Instr.ofName n opd)) ∨
    ((∀ n, opcode n ≠ op) ∧ ∀ opd, decodeWith opcode op opd = .unknown op) := by
  cases hfind : OpName.all.find? (fun n => opcode n == op) with
  | some n => exact .inl ⟨n, by simpa using List.find?_some hfind, fun opd => by rw [decodeWith, hfind]⟩
  | none =>
    have hnone : ∀ n, opcode n ≠ op := fun n => by simpa using List.find?_eq_none.mp hfind n n.mem_all
    exact .inr ⟨hnone, fun opd => by rw [decodeWith, hfind]⟩

end Sys2Proof

namespace Sys2Proof.Machine

section
variable {s : State}

/-- A running core whose `PC` fails a range check ends its run in that check's fault (R70, R71). -/
theorem step_of_fetchCheck_some {r : FaultReason} (hrun : s.status = .running) (hcheck : s.fetchCheck = some r) :
    step s = .next (s.setStatus (.faulted r)) := by
  rw [step, State.stopped_none.mpr hrun, hcheck]
  rfl

/-- A fetched pair that decodes to an instruction is executed from the state after the advance (R72, R73, R75). -/
theorem step_of_decode_instr {op opd : Word} {i : Instr} (hfetch : Fetches s op opd)
    (hdecode : s.decode op opd = .instr i) : step s = exec i s.advance := by
  obtain ⟨hrun, hpc, hop, hopd⟩ := hfetch
  rw [step, State.stopped_none.mpr hrun, State.fetchCheck_none.mpr hpc, State.fetchOp, State.fetchOperand, hop, hopd,
    hdecode]

end

/-- Settles O1: the step is `exec` of the decoded instruction after the advance, which does not wrap for a fetched
pair where N is below 2^64. -/
theorem stepRunsTheDecodedInstruction : Obligations.StepRunsTheDecodedInstruction := by
  unfold Obligations.StepRunsTheDecodedInstruction
  intro s op opd i hfetch hdecode _
  have ⟨_, hpc, _, _⟩ := hfetch
  exact ⟨step_of_decode_instr hfetch hdecode, fun hN => State.advance_toNat hN hpc⟩

/-- Settles O3: such a `PC` fails the first range check, whose fault writes the status only. -/
theorem pcOutOfRangeEndsTheRun : Obligations.PcOutOfRangeEndsTheRun := by
  unfold Obligations.PcOutOfRangeEndsTheRun
  intro s hrun hpc
  exact step_of_fetchCheck_some hrun (State.fetchCheck_pc hpc)

/-- Settles O9: the case of the opcode word is the same one for both operand words. -/
theorem opcodeWordAloneSelects : Obligations.OpcodeWordAloneSelects := by
  unfold Obligations.OpcodeWordAloneSelects
  intro opcode op a b
  rcases decodeWith_cases opcode op with ⟨n, hn, hdec⟩ | ⟨hnone, hdec⟩
  · exact .inl ⟨n, hn, hdec a, hdec b⟩
  · exact .inr ⟨hnone, hdec a, hdec b⟩

end Sys2Proof.Machine

/-! PROOFS. Compare and branch (R98 to R106): a branch by its condition; what two states that differ in one piece answer
alike; which steps leave `FLAG`; and from these O23 and O25. -/

namespace Sys2Proof.Machine

section
variable {s t u : State}

/-! ### Branches (R101) -/

theorem branch_of_taken {taken : Flag → Bool} (opd : Word) (h : taken s.flag = true) :
    branch taken opd s = .next (s.setPc opd) := by
  rw [branch, if_pos h]

theorem branch_of_not_taken {taken : Flag → Bool} (opd : Word) (h : taken s.flag = false) :
    branch taken opd s = .next s := by
  rw [branch, h, if_neg Bool.false_ne_true]

/-! ### Agreement of the shared operations

With `withValue_agree`: where two states hold the same in every piece an operation reads, its two answers agree as soon
as its writes do. -/

/-- Two stores at one address, over memories of one size. -/
theorem memWrite_agree {R : State → State → Prop} {a v w : Word} (hparams : u.params = s.params)
    (hwrite : R (s.setMem (s.mem.write a.toNat v)) (u.setMem (u.mem.write a.toNat w)))
    (hfault : ∀ e, R (s.setStatus (.faulted e)) (u.setStatus (.faulted e))) :
    AgreeOn R (memWrite a v s) (memWrite a w u) := by
  unfold memWrite inRange
  rw [hparams]
  split
  · exact hwrite
  · exact hfault _

/-- Two shifts of one value by one amount, with the same next free value. -/
theorem shiftAcc_related {R : State → State → Prop} (f : Word → Nat → Word) (amount : Word)
    (hparams : u.params = s.params) (hacc : u.acc = s.acc) (hdraws : u.draws = s.draws)
    (hset : ∀ v, R (s.setAcc v) (u.setAcc v)) (hdrawn : ∀ v, R (s.setAcc v).countDraw (u.setAcc v).countDraw) :
    R (shiftAcc f amount s) (shiftAcc f amount u) := by
  unfold shiftAcc
  rw [hparams, hacc, hdraws]
  split
  · exact hset _
  · split
    · exact hset _
    · exact hdrawn _

/-- Two char-ins over the same input, with the same next free value. -/
theorem execCharIn_agree {R : State → State → Prop} (opd : Word)
    (hparams : u.params = s.params) (hinput : u.input = s.input) (hdraws : u.draws = s.draws)
    (hbyte : ∀ rest v, R ((s.setInput rest).setAcc v) ((u.setInput rest).setAcc v))
    (hdrawn : ∀ v, R (s.countDraw.setAcc v) (u.countDraw.setAcc v)) :
    AgreeOn R (execCharIn opd s) (execCharIn opd u) := by
  unfold execCharIn State.readChar
  rw [hparams, hinput, hdraws]
  cases s.input with
  | cons c rest => exact hbyte rest _
  | nil =>
    cases s.params.eofPolicy with
    | hold => exact rfl
    | anyValue => exact hdrawn _

/-! ### Who reads `FLAG` (R21, R106) -/

/-- Two states that differ in `FLAG` at most. -/
def SameButFlag (t u : State) : Prop := t = { u with flag := t.flag }

/-- The instructions that read `FLAG`: the two conditional jumps, and inspect for its snapshot (log entry 16). -/
def flagReaders : List OpName := [.jumpIfEqual, .jumpIfNotEqual, .inspect]

/-- An instruction that does not read `FLAG` answers alike under every `FLAG`, but for `FLAG` itself. -/
theorem exec_agree_of_not_flagReader {i : Instr} (s : State) (f : Flag) (hi : i.name ∉ flagReaders) :
    AgreeOn SameButFlag (exec i s) (exec i { s with flag := f }) := by
  cases i
  case jumpIfEqual | jumpIfNotEqual | inspect => simp [Instr.name, flagReaders] at hi
  case loadDirect | loadIndirect | loadIndexed | addMem | subMem | compareMem | compareIndirect | andMem | xorMem
      | orMem =>
    exact withValue_agree _ (fun _ => rfl) (fun _ => rfl)
  case store => exact memWrite_agree rfl rfl (fun _ => rfl)
  case shiftLeft | shiftRight =>
    exact shiftAcc_related (R := SameButFlag) _ _ rfl rfl rfl (fun _ => rfl) (fun _ => rfl)
  case charIn opd => exact execCharIn_agree opd rfl rfl rfl (fun _ _ => rfl) (fun _ => rfl)
  case loadImmediate | loadIndexImmediate | moveAccToIndex | addImm | subImm | incAcc | incIndex | decAcc | decIndex
      | compareImm | jump | andImm | xorImm | orImm | charOut | halt =>
    exact rfl

/-! ### Who writes `FLAG` (R98 to R100, R106) -/

/-- The three compares. -/
def compares : List OpName := [.compareMem, .compareImm, .compareIndirect]

theorem exec_flag_of_not_compare {i : Instr} (h : exec i s = .next t) (hi : i.name ∉ compares) : t.flag = s.flag := by
  cases exec_next h
  case flag hcompare => exact absurd hcompare hi
  all_goals subst t; rfl

/-- A fetched pair that decodes to an instruction holds its name's opcode word and its operand word. -/
theorem fetchesInstr_of_decode {i : Instr} (hrun : s.status = .running) (hpc : s.pc.toNat + 1 < s.params.memWords)
    (hdecode : s.decode s.fetchOp s.fetchOperand = .instr i) : FetchesInstr s i.name i.operand := by
  rcases decodeWith_cases s.params.opcode.of s.fetchOp with ⟨n, hn, hdec⟩ | ⟨-, hdec⟩
  · obtain rfl := Decoded.instr.inj ((hdec _).symm.trans hdecode)
    rw [Instr.name_ofName, Instr.operand_ofName]
    exact ⟨hrun, hpc, hn.symm, rfl⟩
  · exact absurd ((hdec _).symm.trans hdecode) (by simp)

/-- A step that executes no compare leaves `FLAG`, also where it ends in a fault or skips an unknown opcode. -/
theorem step_flag_of_no_compare (h : step s = .next t) (hno : ¬ AboutToExecute s compares) : t.flag = s.flag := by
  obtain ⟨hrun, ⟨-, rfl⟩ | ⟨-, rfl⟩ | ⟨hpc, ⟨i, hdecode, hexec⟩ | ⟨op, -, rfl⟩⟩⟩ := step_next h
  · rfl
  · rfl
  · have hi : i.name ∉ compares := fun hi => hno ⟨_, hi, _, fetchesInstr_of_decode hrun hpc hdecode⟩
    exact (exec_flag_of_not_compare hexec hi).trans s.advance_flag
  · rfl

theorem runSteps_succ_of_step (k : Nat) (h : step s = .next t) : runSteps (k + 1) s = runSteps k t := by
  rw [runSteps, h]

theorem runSteps_flag_of_no_compare {k : Nat} (h : runSteps k s = .next t)
    (hno : ∀ j u, j < k → runSteps j s = .next u → ¬ AboutToExecute u compares) : t.flag = s.flag := by
  induction k generalizing s with
  | zero => cases h; rfl
  | succ k ih =>
    obtain ⟨u, hstep, hrun⟩ := runSteps_succ_next h
    have hrest : ∀ j v, j < k → runSteps j u = .next v → ¬ AboutToExecute v compares := fun j v hj hv =>
      hno (j + 1) v (Nat.succ_lt_succ hj) ((runSteps_succ_of_step j hstep).trans hv)
    calc t.flag = u.flag := ih hrun hrest
      _ = s.flag := step_flag_of_no_compare hstep (hno 0 s k.succ_pos rfl)

/-! ### Unknown opcodes (R76) -/

theorem State.decode_of_unknown {op : Word} (opd : Word) (h : ∀ n, s.params.opcode.of n ≠ op) :
    s.decode op opd = .unknown op := by
  rcases decodeWith_cases s.params.opcode.of op with ⟨n, hn, -⟩ | ⟨-, hdec⟩
  · exact absurd hn (h n)
  · exact hdec opd

/-- A fetched pair whose opcode word is outside the defined set is reported and skipped. -/
theorem step_of_unknown {op opd : Word} (hfetch : Fetches s op opd) (h : ∀ n, s.params.opcode.of n ≠ op) :
    step s = .next (s.advance.emitDiag s.pc op) := by
  obtain ⟨hrun, hpc, hop, hopd⟩ := hfetch
  rw [step, State.stopped_none.mpr hrun, State.fetchCheck_none.mpr hpc, State.fetchOp, State.fetchOperand, hop, hopd,
    State.decode_of_unknown opd h]
  rfl

end

/-- Settles O23: each conditional jump evaluates its own condition at the two values of `FLAG`. -/
theorem branchesFollowTheFlagAlone : Obligations.BranchesFollowTheFlagAlone := by
  unfold Obligations.BranchesFollowTheFlagAlone
  intro opd s
  refine ⟨BitVec.eq_zero_or_eq_one s.flag, branch_of_taken opd rfl, fun h => branch_of_taken opd ?_,
    fun h => branch_of_not_taken opd ?_, fun h => branch_of_taken opd ?_, fun h => branch_of_not_taken opd ?_⟩ <;>
    rw [h] <;> rfl

/-- Settles O25: by induction on the run, since only a compare's step writes `FLAG`; instruction by instruction for the
reads; inspect's snapshot is the one of R122 in both states; and an unknown opcode is reported and skipped. -/
theorem flagIsolation : Obligations.FlagIsolation := by
  unfold Obligations.FlagIsolation
  exact ⟨fun _ _ _ h hno => runSteps_flag_of_no_compare h hno, fun _ s f hi => exec_agree_of_not_flagReader s f hi,
    fun _ s _ => ⟨s.snapshot, rfl, rfl⟩, fun _ _ _ hfetch h => ⟨_, step_of_unknown hfetch h, rfl⟩⟩

end Sys2Proof.Machine

/-! PROOFS. The decoder and the encoder (R48 to R57, R74): each undoes the other under every injective OPCODE map; from
this O7, O8 and O10. -/

namespace Sys2Proof

section
variable {opcode : OpName → Word} {op opd : Word}

theorem decodeWith_encodeWith (hinj : Function.Injective opcode) (i : Instr) :
    decodeWith opcode (encodeWith opcode i).1 (encodeWith opcode i).2 = .instr i :=
  (decodeWith_of_unique i.operand fun _ h => hinj h).trans (congrArg Decoded.instr i.ofName_name_operand)

theorem encodeWith_of_decodeWith {i : Instr} (h : decodeWith opcode op opd = .instr i) :
    encodeWith opcode i = (op, opd) := by
  rcases decodeWith_cases opcode op with ⟨n, rfl, hdec⟩ | ⟨-, hdec⟩
  · obtain rfl := Decoded.instr.inj ((hdec opd).symm.trans h)
    rw [encodeWith, Instr.name_ofName, Instr.operand_ofName]
  · exact absurd ((hdec opd).symm.trans h) (by simp)

theorem decodeWith_eq_unknown_iff {op' : Word} :
    decodeWith opcode op opd = .unknown op' ↔ op' = op ∧ ∀ n, opcode n ≠ op := by
  rcases decodeWith_cases opcode op with ⟨n, hn, hdec⟩ | ⟨hnone, hdec⟩
  · rw [hdec]
    exact ⟨fun h => by simp at h, fun ⟨_, hnone⟩ => absurd hn (hnone n)⟩
  · rw [hdec]
    exact ⟨fun h => ⟨(Decoded.unknown.inj h).symm, hnone⟩, fun ⟨h, _⟩ => h ▸ rfl⟩

theorem OpcodeMap.of_ofFun_eq (f : OpName → Word) : (OpcodeMap.ofFun f).of = f := funext (OpcodeMap.of_ofFun f)

theorem Params.default_ok : Params.default.ok = true := by decide

/-- The default map is injective, because the default parameters meet their constraints (R52, D1). -/
theorem OpName.opcode_injective : Function.Injective OpName.opcode := by
  obtain ⟨-, -, hinj⟩ := Machine.params_ok Params.default_ok
  rwa [show Params.default.opcode.of = OpName.opcode from OpcodeMap.of_ofFun_eq _] at hinj

theorem decode_opcode (n : OpName) (opd : Word) : decode n.opcode opd = .instr (Instr.ofName n opd) :=
  decodeWith_of_unique opd fun _ h => OpName.opcode_injective h

theorem decodeWords_encode (i : Instr) (rest : List Word) :
    decodeWords ((encode i).1 :: (encode i).2 :: rest) = .ok (i, rest) := by
  have h : decode (encode i).1 (encode i).2 = .instr i := decodeWith_encodeWith OpName.opcode_injective i
  rw [decodeWords, h]

end

/-- Settles O7: an instruction is its name and its operand word, and an injective map finds the name again. -/
theorem decodeInvertsEncodeUnderEveryOpcodeMap : Obligations.DecodeInvertsEncodeUnderEveryOpcodeMap := by
  unfold Obligations.DecodeInvertsEncodeUnderEveryOpcodeMap
  refine ⟨fun opcode hinj => ⟨fun i _ => decodeWith_encodeWith hinj i, fun _ _ _ h => encodeWith_of_decodeWith h,
    fun _ _ _ => decodeWith_eq_unknown_iff⟩, OpName.opcode_injective, fun opcode s op opd h => ?_,
    fun i rest _ => decodeWords_encode i rest⟩
  rw [Machine.State.decode, h, OpcodeMap.of_ofFun_eq]

/-- Settles O8: each row is the default map's word of one name. -/
theorem opcodeTableWordsDecode : Obligations.OpcodeTableWordsDecode := by
  unfold Obligations.OpcodeTableWordsDecode
  intro opd
  have row := fun n => decode_opcode n opd
  exact ⟨row .loadImmediate, row .loadDirect, row .loadIndirect, row .loadIndexed, row .loadIndexImmediate,
    row .moveAccToIndex, row .store, row .addImm, row .addMem, row .subImm, row .subMem, row .incAcc, row .incIndex,
    row .decAcc, row .decIndex, row .compareMem, row .compareImm, row .compareIndirect, row .jump, row .jumpIfEqual,
    row .jumpIfNotEqual, row .andImm, row .andMem, row .xorImm, row .xorMem, row .orImm, row .orMem, row .shiftLeft,
    row .shiftRight, row .charIn, row .charOut, row .halt, row .inspect⟩

/-- Settles O10: the meanings of the nine names that ignore their operand word do not mention it. -/
theorem ignoredOperandWordHasNoEffect : Obligations.IgnoredOperandWordHasNoEffect := by
  unfold Obligations.IgnoredOperandWordHasNoEffect
  intro n a b s hignored
  cases n
  case moveAccToIndex | incAcc | incIndex | decAcc | decIndex | charIn | charOut | halt | inspect => rfl
  all_goals cases hignored

end Sys2Proof

/-! PROOFS. The invariant (R13 to R31, R77, R142): what an instruction does to the status, that every step keeps
`State.Inv`, that the streams grow by one element a step at most, and what the loader leaves; from these O33, O37, O38,
O41, O42 and O46 to O48. -/

namespace Sys2Proof.Machine

section
variable {s t u : State}

/-! ### The status after an instruction (R77, R78, R120) -/

/-- An instruction leaves the status, or is halt, or ends the run in the data fault of an address out of range. -/
theorem exec_status_cases {i : Instr} (h : exec i s = .next t) :
    t.status = s.status ∨ (t = s.setStatus .halted ∧ i.name = .halt) ∨
    ∃ a : Word, s.params.memWords ≤ a.toNat ∧ t = s.setStatus (.faulted (.dataAddressOutOfRange a)) ∧
      i.name ∈ dataAccessors := by
  cases exec_next h
  case halt ht hi => exact .inr (.inl ⟨ht, hi⟩)
  case fault a ha ht hi => exact .inr (.inr ⟨a, ha, ht, hi⟩)
  all_goals subst t; exact .inl rfl

/-! ### The invariant -/

theorem State.statusRecord_of_running (h : s.status = .running) : s.StatusRecord := by
  rw [State.StatusRecord, h]
  trivial

theorem State.Inv.advance (hinv : s.Inv) (hrun : s.status = .running) : s.advance.Inv :=
  { hinv with record := State.statusRecord_of_running hrun }

/-- An instruction executed from an advanced `PC` keeps the invariant. -/
theorem exec_keeps_inv {i : Instr} (h : exec i s = .next t) (hinv : s.Inv) (hrun : s.status = .running)
    (hpc : AdvancedPc s.params.memWords s.pc) : t.Inv := by
  cases exec_next h
  case store opd hi ha ht =>
    subst ht
    exact { hinv with
      memWf := Memory.write_wf _ ha hinv.memWf
      record := State.statusRecord_of_running hrun }
  case halt ht hi =>
    subst ht
    exact { hinv with record := hpc }
  case inspect ht hi =>
    subst ht
    refine { hinv with snapshots := fun d hd => ?_, record := State.statusRecord_of_running hrun }
    rcases List.mem_append.mp hd with hd | hd
    · exact hinv.snapshots d hd
    · obtain rfl := List.mem_singleton.mp hd
      exact ⟨hinv.memWf, rfl, hpc⟩
  case fault a ha ht hi =>
    subst ht
    exact { hinv with record := ⟨ha, hpc⟩ }
  all_goals
    subst t
    exact { hinv with record := State.statusRecord_of_running hrun }

/-- Reporting an opcode word outside the defined set and going on keeps the invariant (R76). -/
theorem skip_keeps_inv {op : Word} (hinv : s.Inv) (hrun : s.status = .running)
    (hpc : s.pc.toNat + 1 < s.params.memWords) (hop : ∀ n, s.params.opcode.of n ≠ op) :
    (s.advance.emitDiag s.pc op).Inv := by
  refine { hinv with reports := fun r hr => ?_, record := State.statusRecord_of_running hrun }
  rcases List.mem_append.mp hr with hr | hr
  · exact hinv.reports r hr
  · obtain rfl := List.mem_singleton.mp hr
    exact ⟨hpc, hop⟩

theorem step_keeps_inv (h : step s = .next t) (hinv : s.Inv) : t.Inv := by
  obtain ⟨hrun, ⟨hpc, rfl⟩ | ⟨hpc, rfl⟩ | ⟨hpc, ⟨i, -, hexec⟩ | ⟨op, hdecode, rfl⟩⟩⟩ := step_next h
  · exact { hinv with record := hpc }
  · exact { hinv with record := hpc }
  · exact exec_keeps_inv hexec (hinv.advance hrun) hrun (AdvancedPc.advance hpc)
  · obtain ⟨rfl, hop⟩ := decodeWith_eq_unknown_iff.mp hdecode
    exact skip_keeps_inv hinv hrun hpc hop

theorem State.resetWith_inv {p : Params} (input : List Byte) (h : p.ok = true) : (State.resetWith p input).Inv where
  paramsOk := h
  memWf := rfl
  labelsWf := rfl
  reports := fun _ hr => (List.not_mem_nil hr).elim
  snapshots := fun _ hd => (List.not_mem_nil hd).elim
  record := trivial

/-! ### The parameters and the label table (R13, R24) -/

theorem exec_params_labels {i : Instr} (h : exec i s = .next t) : t.params = s.params ∧ t.labels = s.labels := by
  cases exec_next h
  all_goals subst t; exact ⟨rfl, rfl⟩

theorem step_params_labels (h : step s = .next t) : t.params = s.params ∧ t.labels = s.labels := by
  obtain ⟨-, ⟨-, rfl⟩ | ⟨-, rfl⟩ | ⟨-, ⟨i, -, hexec⟩ | ⟨op, -, rfl⟩⟩⟩ := step_next h
  · exact ⟨rfl, rfl⟩
  · exact ⟨rfl, rfl⟩
  · exact (exec_params_labels hexec :)
  · exact ⟨rfl, rfl⟩

/-! ### The streams (R19) -/

/-- From `s` to `t` the input is taken from its head and the output streams grow, by `k` elements in all at most. -/
def StreamsGrowBy (k : Nat) (s t : State) : Prop :=
  ∃ (c o : List Byte) (d : List Report) (g : List Snapshot),
    s.input = c ++ t.input ∧ t.output = s.output ++ o ∧ t.diag = s.diag ++ d ∧ t.dbg = s.dbg ++ g ∧
    c.length + o.length + d.length + g.length ≤ k

theorem StreamsGrowBy.of_same {k : Nat} (hin : t.input = s.input) (hout : t.output = s.output)
    (hdiag : t.diag = s.diag) (hdbg : t.dbg = s.dbg) : StreamsGrowBy k s t :=
  ⟨[], [], [], [], hin.symm, by simpa using hout, by simpa using hdiag, by simpa using hdbg, Nat.zero_le k⟩

theorem StreamsGrowBy.trans {j k : Nat} (hst : StreamsGrowBy j s t) (htu : StreamsGrowBy k t u) :
    StreamsGrowBy (j + k) s u := by
  obtain ⟨c, o, d, g, hin, hout, hdiag, hdbg, hlen⟩ := hst
  obtain ⟨c', o', d', g', hin', hout', hdiag', hdbg', hlen'⟩ := htu
  refine ⟨c ++ c', o ++ o', d ++ d', g ++ g', ?_, ?_, ?_, ?_, ?_⟩
  · rw [hin, hin', List.append_assoc]
  · rw [hout', hout, List.append_assoc]
  · rw [hdiag', hdiag, List.append_assoc]
  · rw [hdbg', hdbg, List.append_assoc]
  · simp only [List.length_append]
    omega

theorem exec_streams {i : Instr} (h : exec i s = .next t) : StreamsGrowBy 1 s t := by
  cases exec_next h
  case charIn c rest hc ht hi =>
    subst ht
    exact ⟨[c], [], [], [], hc, by simp⟩
  case charOut ht hi =>
    subst ht
    exact ⟨[], [s.acc.setWidth 8], [], [], rfl, by simp⟩
  case inspect ht hi =>
    subst ht
    exact ⟨[], [], [], [s.snapshot], rfl, by simp⟩
  all_goals subst t; exact .of_same rfl rfl rfl rfl

theorem step_streams (h : step s = .next t) : StreamsGrowBy 1 s t := by
  obtain ⟨-, ⟨-, rfl⟩ | ⟨-, rfl⟩ | ⟨-, ⟨i, -, hexec⟩ | ⟨op, -, rfl⟩⟩⟩ := step_next h
  · exact .of_same rfl rfl rfl rfl
  · exact .of_same rfl rfl rfl rfl
  · exact (exec_streams hexec :)
  · exact ⟨[], [], [{ addr := s.pc, opcode := op }], [], rfl, by simp⟩

/-! ### Runs -/

/-- The induction over runs, once: the invariant, the parameters, the label table and the bound on the streams. -/
theorem runSteps_keeps {k : Nat} (h : runSteps k s = .next t) (hinv : s.Inv) :
    t.Inv ∧ t.params = s.params ∧ t.labels = s.labels ∧ StreamsGrowBy k s t := by
  induction k generalizing s with
  | zero =>
    cases h
    exact ⟨hinv, rfl, rfl, .of_same rfl rfl rfl rfl⟩
  | succ k ih =>
    obtain ⟨u, hstep, hrun⟩ := runSteps_succ_next h
    obtain ⟨hparams, hlabels⟩ := step_params_labels hstep
    obtain ⟨htinv, htparams, htlabels, htstreams⟩ := ih hrun (step_keeps_inv hstep hinv)
    exact ⟨htinv, htparams.trans hparams, htlabels.trans hlabels,
      Nat.add_comm 1 k ▸ (step_streams hstep).trans htstreams⟩

/-! ### Loading (R142) -/

/-- The start of a run from an image: the reset state with the image in memory and in the label table. -/
def State.loaded (q : Params) (img : Image) (input : List Byte) : State :=
  { State.resetWith q input with mem := writeWords (State.resetWith q input).mem img.words, labels := img.labels }

theorem State.load_of_wf {q : Params} {img : Image} (input : List Byte) (h : img.wf q.memWords = true) :
    State.load q img input = .ok (State.loaded q img input) := if_pos h

theorem State.load_eq_ok {q : Params} {img : Image} {input : List Byte} (h : State.load q img input = .ok s) :
    img.wf q.memWords = true ∧ s = State.loaded q img input := by
  unfold State.load at h
  split at h
  · exact ⟨‹_›, (Except.ok.inj h).symm⟩
  · cases h

theorem Image.wf_iff {n : Nat} {img : Image} :
    img.wf n = true ↔ (∀ w ∈ img.words, w.1 < n) ∧ img.labels.wf n = true := by
  simp [Image.wf]

theorem State.loaded_inv {q : Params} {img : Image} (input : List Byte) (hok : q.ok = true)
    (hwf : img.wf q.memWords = true) : (State.loaded q img input).Inv := by
  obtain ⟨hwords, hlabels⟩ := Image.wf_iff.mp hwf
  have hreset := State.resetWith_inv input hok
  exact { hreset with
    memWf := writeWords_wf img.words _ hreset.memWf hwords
    labelsWf := hlabels
    snapshots := fun _ hd => (List.not_mem_nil hd).elim }

/-- Words written to addresses named once are read back. -/
theorem writeWords_read_mem {n : Nat} {ws : List (Nat × Word)} :
    ∀ {m : Memory}, m.wf n = true → (∀ w ∈ ws, w.1 < n) → (ws.map Prod.fst).Nodup →
      ∀ w ∈ ws, (writeWords m ws).read w.1 = w.2 := by
  induction ws with
  | nil => exact fun _ _ _ _ h => (List.not_mem_nil h).elim
  | cons x ws ih =>
    intro m hm hlt hnodup w hw
    obtain ⟨hx, hws⟩ := List.forall_mem_cons.mp hlt
    obtain ⟨hnew, hnodup⟩ := List.nodup_cons.mp hnodup
    rcases List.mem_cons.mp hw with rfl | hw
    · have hother : ∀ y ∈ ws, y.1 ≠ w.1 := fun y hy heq => hnew (heq ▸ List.mem_map_of_mem hy)
      calc (writeWords (m.write w.1 w.2) ws).read w.1 = (m.write w.1 w.2).read w.1 :=
            writeWords_read_other ws w.1 _ hother
        _ = w.2 := Memory.read_write_same _ _ hm
    · exact ih (Memory.write_wf _ hx hm) hws hnodup w hw

/-! ### The ends of a run (R70, R71, R77, R78, R120) -/

/-- The instruction a step executes is the one its pair names. -/
theorem aboutToExecute_of_decode {i : Instr} {names : List OpName} (hrun : s.status = .running)
    (hpc : s.pc.toNat + 1 < s.params.memWords) (hdecode : s.decode s.fetchOp s.fetchOperand = .instr i)
    (hi : i.name ∈ names) : AboutToExecute s names :=
  ⟨i.name, hi, i.operand, fetchesInstr_of_decode hrun hpc hdecode⟩

/-- The status a step leaves: `Running`, `Halted` by a fetched halt, or one of the three faults with the exact state. -/
theorem step_status_cases (h : step s = .next t) :
    t.status = .running ∨ (t.status = .halted ∧ AboutToExecute s [.halt]) ∨
    (s.params.memWords ≤ s.pc.toNat ∧ t = s.setStatus (.faulted .pcOutOfRange)) ∨
    (s.pc.toNat + 1 = s.params.memWords ∧ t = s.setStatus (.faulted .operandFetchOutOfRange)) ∨
    ∃ a : Word, s.params.memWords ≤ a.toNat ∧ t = s.advance.setStatus (.faulted (.dataAddressOutOfRange a)) ∧
      AboutToExecute s dataAccessors := by
  obtain ⟨hrun, ⟨hpc, ht⟩ | ⟨hpc, ht⟩ | ⟨hpc, ⟨i, hdecode, hexec⟩ | ⟨op, -, rfl⟩⟩⟩ := step_next h
  · exact .inr (.inr (.inl ⟨hpc, ht⟩))
  · exact .inr (.inr (.inr (.inl ⟨hpc, ht⟩)))
  · rcases exec_status_cases hexec with hsame | ⟨rfl, hi⟩ | ⟨a, ha, ht, hi⟩
    · exact .inl (hsame.trans hrun)
    · exact .inr (.inl ⟨rfl, aboutToExecute_of_decode hrun hpc hdecode (List.mem_singleton.mpr hi)⟩)
    · exact .inr (.inr (.inr (.inr ⟨a, ha, ht, aboutToExecute_of_decode hrun hpc hdecode hi⟩)))
  · exact .inl hrun

end

/-- Settles O47: a range fault records its `PC`, an instruction starts from an advanced `PC`, and an unknown opcode is
reported from inside memory. -/
theorem stepKeepsTheInvariant : Obligations.StepKeepsTheInvariant := by
  unfold Obligations.StepKeepsTheInvariant
  exact fun _ _ hinv h => step_keeps_inv h hinv

/-- Settles O46: at the start of a run memory, label table and streams are empty and the status is `Running`. -/
theorem resetMeetsTheInvariant : Obligations.ResetMeetsTheInvariant := by
  unfold Obligations.ResetMeetsTheInvariant
  exact ⟨fun _ input h => State.resetWith_inv input h, State.resetWith_inv [] Params.default_ok⟩

/-- Settles O41: the start of a run is defined with these values. -/
theorem resetLeavesTheStatedValues : Obligations.ResetLeavesTheStatedValues := by
  unfold Obligations.ResetLeavesTheStatedValues
  exact ⟨fun _ _ => ⟨fun _ => rfl, rfl, rfl, rfl, rfl, rfl, rfl, rfl, rfl, rfl, rfl, rfl⟩, rfl, rfl, rfl, rfl, rfl⟩

/-- Settles O33: only char-in, char-out, inspect and an unknown opcode touch a stream, each by one element. -/
theorem streamsOnlyGrow : Obligations.StreamsOnlyGrow := by
  unfold Obligations.StreamsOnlyGrow
  exact fun _ _ h => step_streams h

/-- Settles O37: a step that ends in a fault is one of the three whose exact state `step_status_cases` gives. -/
theorem faultingStepIsPrecise : Obligations.FaultingStepIsPrecise := by
  unfold Obligations.FaultingStepIsPrecise
  intro s t r h hfault
  rcases step_status_cases h with hrun | ⟨hhalt, -⟩ | ⟨hpc, rfl⟩ | ⟨hpc, rfl⟩ | ⟨a, ha, rfl, habout⟩
  · exact absurd (hrun.symm.trans hfault) (by simp)
  · exact absurd (hhalt.symm.trans hfault) (by simp)
  · obtain rfl := Status.faulted.inj hfault
    exact .inl ⟨rfl, hpc, rfl⟩
  · obtain rfl := Status.faulted.inj hfault
    exact .inr (.inl ⟨rfl, hpc, rfl⟩)
  · obtain rfl := Status.faulted.inj hfault
    exact .inr (.inr ⟨a, rfl, ha, rfl, habout⟩)

/-- Settles O38: none of the statuses a step leaves is `Refused`. -/
theorem runEndsOnlyByHaltOrARangeFault : Obligations.RunEndsOnlyByHaltOrARangeFault := by
  unfold Obligations.RunEndsOnlyByHaltOrARangeFault
  intro s t h
  obtain ⟨hrunning, -⟩ := step_next h
  refine ⟨hrunning, ?_⟩
  rcases step_status_cases h with hrun | hhalt | ⟨-, rfl⟩ | ⟨-, rfl⟩ | ⟨a, -, rfl, -⟩
  · exact .inl hrun
  · exact .inr (.inl hhalt)
  · exact .inr (.inr ⟨_, rfl⟩)
  · exact .inr (.inr ⟨_, rfl⟩)
  · exact .inr (.inr ⟨_, rfl⟩)

/-- Settles O42: the words written are read back, since none is overwritten, and the other words are those of reset. -/
theorem loadLeavesTheImageInMemory : Obligations.LoadLeavesTheImageInMemory := by
  unfold Obligations.LoadLeavesTheImageInMemory
  intro q img input hwf hnodup
  obtain ⟨hwords, -⟩ := Image.wf_iff.mp hwf
  exact ⟨_, State.load_of_wf input hwf, rfl, writeWords_read_mem (m := []) rfl hwords hnodup,
    fun a ha => writeWords_read_other img.words a [] ha⟩

/-- Settles O48: the loaded state meets the invariant and has empty output streams, and every run keeps the rest. -/
theorem loadedRunsKeepTheInvariant : Obligations.LoadedRunsKeepTheInvariant := by
  unfold Obligations.LoadedRunsKeepTheInvariant
  intro q img input s t k hok hload hrun
  obtain ⟨hwf, rfl⟩ := State.load_eq_ok hload
  obtain ⟨hinv, hparams, hlabels, c, o, d, g, hin, hout, hdiag, hdbg, hlen⟩ :=
    runSteps_keeps hrun (State.loaded_inv input hok hwf)
  refine ⟨hinv, hparams, hlabels, c, hin, ?_⟩
  rw [hout, hdiag, hdbg]
  exact hlen

end Sys2Proof.Machine

/-! PROOFS. The memory as its words (log entry 1): in canonical form the lowest listed address is the lowest one that
does not read as blank; from this O40. -/

namespace Sys2Proof.Machine

theorem Memory.wfFrom_cons {n lo : Nat} {e : Nat × Word} {rest : Memory} :
    Memory.wfFrom n lo (e :: rest) = true ↔
      (lo ≤ e.1 ∧ e.1 < n) ∧ e.2 ≠ Memory.blank ∧ Memory.wfFrom n (e.1 + 1) rest = true := by
  simp [Memory.wfFrom, and_assoc]

theorem Memory.read_cons_same (k : Nat) (v : Word) (rest : Memory) : Memory.read ((k, v) :: rest) k = v := if_pos rfl

theorem Memory.read_cons_of_ne {k a : Nat} (v : Word) (rest : Memory) (h : k ≠ a) :
    Memory.read ((k, v) :: rest) a = Memory.read rest a := if_neg h

/-- A form starts at the first address it lists. -/
theorem Memory.wfFrom_head {n lo : Nat} {e : Nat × Word} {rest : Memory} (h : Memory.wfFrom n lo (e :: rest) = true) :
    Memory.wfFrom n e.1 (e :: rest) = true := by
  obtain ⟨⟨-, hn⟩, hv, hrest⟩ := Memory.wfFrom_cons.mp h
  exact Memory.wfFrom_cons.mpr ⟨⟨Nat.le_refl _, hn⟩, hv, hrest⟩

/-- The first listed word is not blank, so a memory that lists only higher addresses reads otherwise there. -/
theorem Memory.read_head_ne {n lo lo' : Nat} {e : Nat × Word} {rest m : Memory}
    (hm : Memory.wfFrom n lo (e :: rest) = true) (hlt : e.1 < lo') (hm' : Memory.wfFrom n lo' m = true) :
    Memory.read (e :: rest) e.1 ≠ m.read e.1 := by
  obtain ⟨-, hv, -⟩ := Memory.wfFrom_cons.mp hm
  rw [Memory.read_cons_same, Memory.read_below hm' hlt]
  exact hv

/-- Memories that read alike and list the same first address read alike without it. -/
theorem Memory.read_tail_eq {n k : Nat} {v v' : Word} {rest rest' : Memory}
    (hrest : Memory.wfFrom n (k + 1) rest = true) (hrest' : Memory.wfFrom n (k + 1) rest' = true)
    (hread : ∀ a, a < n → Memory.read ((k, v) :: rest) a = Memory.read ((k, v') :: rest') a) :
    ∀ a, a < n → Memory.read rest a = Memory.read rest' a := by
  intro a ha
  by_cases hka : k = a
  · subst hka
    rw [Memory.read_below hrest (Nat.lt_succ_self k), Memory.read_below hrest' (Nat.lt_succ_self k)]
  · simpa [Memory.read_cons_of_ne _ _ hka] using hread a ha

theorem Memory.eq_of_read_eq {n : Nat} {m : Memory} :
    ∀ {lo : Nat} {m' : Memory}, Memory.wfFrom n lo m = true → Memory.wfFrom n lo m' = true →
      (∀ a, a < n → m.read a = m'.read a) → m = m' := by
  induction m with
  | nil =>
    intro lo m' _ hm' hread
    cases m' with
    | nil => rfl
    | cons e' rest' =>
      obtain ⟨⟨-, hn'⟩, -, -⟩ := Memory.wfFrom_cons.mp hm'
      exact absurd (hread e'.1 hn').symm (Memory.read_head_ne hm' (Nat.lt_succ_self _) rfl)
  | cons e rest ih =>
    intro lo m' hm hm' hread
    obtain ⟨⟨-, hn⟩, -, hrest⟩ := Memory.wfFrom_cons.mp hm
    cases m' with
    | nil => exact absurd (hread e.1 hn) (Memory.read_head_ne hm (Nat.lt_succ_self _) rfl)
    | cons e' rest' =>
      obtain ⟨⟨-, hn'⟩, -, hrest'⟩ := Memory.wfFrom_cons.mp hm'
      rcases Nat.lt_trichotomy e.1 e'.1 with hlt | heq | hlt
      · exact absurd (hread e.1 hn) (Memory.read_head_ne hm hlt (Memory.wfFrom_head hm'))
      · obtain ⟨k, v⟩ := e
        obtain ⟨k', v'⟩ := e'
        obtain rfl : k = k' := heq
        have hhead : v = v' := by simpa [Memory.read_cons_same] using hread k hn
        rw [hhead, ih hrest hrest' (Memory.read_tail_eq hrest hrest' hread)]
      · exact absurd (hread e'.1 hn').symm (Memory.read_head_ne hm' hlt (Memory.wfFrom_head hm))

/-- Settles O40, by induction on the first memory: equal reads give equal first entries, and then equal rests. -/
theorem memoryIsDeterminedByItsWords : Obligations.MemoryIsDeterminedByItsWords := by
  unfold Obligations.MemoryIsDeterminedByItsWords
  exact fun _ _ _ hm hm' hread => Memory.eq_of_read_eq hm hm' hread

end Sys2Proof.Machine

/-! PROOFS. The model's word operations as operations on numbers (R6, R7, R97). -/

namespace Sys2Proof

namespace Word
variable (a b : Word)

theorem ofNat_toNat_add : BitVec.ofNat 64 (a.toNat + b.toNat) = a + b := by simp [BitVec.ofNat_add]

theorem ofInt_toNat_sub : BitVec.ofInt 64 ((a.toNat : Int) - b.toNat) = a - b := by
  rw [Int.sub_eq_add_neg, BitVec.ofInt_add, BitVec.ofInt_neg, BitVec.sub_eq_add_neg]
  simp

theorem add_one_eq : a + 1 = if a = Word.max then 0 else BitVec.ofNat 64 (a.toNat + 1) := by
  split
  · subst a; decide
  · simp [BitVec.ofNat_add]

theorem sub_one_eq : a - 1 = if a = 0 then Word.max else BitVec.ofNat 64 (a.toNat - 1) := by
  split
  · subst a; decide
  · bv_omega

theorem shiftLeft_eq_ofNat (n : Nat) : a <<< n = BitVec.ofNat 64 (a.toNat * 2 ^ n) := by
  apply BitVec.eq_of_toNat_eq
  rw [BitVec.toNat_shiftLeft, Nat.shiftLeft_eq, BitVec.toNat_ofNat]

theorem ushiftRight_eq_ofNat (n : Nat) : a >>> n = BitVec.ofNat 64 (a.toNat / 2 ^ n) := by
  apply BitVec.eq_of_toNat_eq
  have hlt : a.toNat / 2 ^ n < 2 ^ 64 := Nat.lt_of_le_of_lt (Nat.div_le_self ..) a.isLt
  rw [BitVec.toNat_ushiftRight, Nat.shiftRight_eq_div_pow, BitVec.toNat_ofNat, Nat.mod_eq_of_lt hlt]

end Word

end Sys2Proof

/-! PROOFS. Load, transfer and store (R81 to R88): what an instruction over each operand form answers, and what store
does; from these O11 to O16. -/

namespace Sys2Proof.Machine

section
variable {s : State}

/-! ### An instruction over an operand form (R38 to R41, R77, R132) -/

/-- The end of a run in the data fault of the address `a`. -/
abbrev State.dataFault (s : State) (a : Word) : State := s.setStatus (.faulted (.dataAddressOutOfRange a))

variable {opd : Word} (k : Word → State)

theorem withValue_direct_of_lt (h : opd.toNat < s.params.memWords) :
    withValue (direct s opd) s k = .next (k (s.mem.read opd.toNat)) := by
  rw [direct, directAddress, State.memRead_of_lt h, withValue]

theorem withValue_direct_of_le (h : s.params.memWords ≤ opd.toNat) :
    withValue (direct s opd) s k = .next (s.dataFault opd) := by
  rw [direct, directAddress, State.memRead_of_le h]
  rfl

/-- With the pointer in range, the indirect form is the direct form of the pointer (R40, R132). -/
theorem indirect_of_lt (h : opd.toNat < s.params.memWords) : indirect s opd = direct s (s.mem.read opd.toNat) := by
  rw [indirect, State.memRead_of_lt h]
  rfl

theorem withValue_indirect_of_lt (h : opd.toNat < s.params.memWords)
    (hp : (s.mem.read opd.toNat).toNat < s.params.memWords) :
    withValue (indirect s opd) s k = .next (k (s.mem.read (s.mem.read opd.toNat).toNat)) := by
  rw [indirect_of_lt h, withValue_direct_of_lt k hp]

theorem withValue_indirect_of_pointer_le (h : opd.toNat < s.params.memWords)
    (hp : s.params.memWords ≤ (s.mem.read opd.toNat).toNat) :
    withValue (indirect s opd) s k = .next (s.dataFault (s.mem.read opd.toNat)) := by
  rw [indirect_of_lt h, withValue_direct_of_le k hp]

theorem withValue_indirect_of_le (h : s.params.memWords ≤ opd.toNat) :
    withValue (indirect s opd) s k = .next (s.dataFault opd) := by
  rw [indirect, State.memRead_of_le h]
  rfl

/-- The effective address of the indexed form is the sum modulo 2^64 (R41). -/
theorem indexedAddress_toNat (s : State) (opd : Word) :
    (indexedAddress s opd).toNat = (opd.toNat + s.ix.toNat) % 2 ^ 64 :=
  BitVec.toNat_add ..

theorem indexedAddress_eq_ofNat (s : State) (opd : Word) :
    indexedAddress s opd = BitVec.ofNat 64 (opd.toNat + s.ix.toNat) :=
  (Word.ofNat_toNat_add opd s.ix).symm

/-- store inside memory. -/
theorem exec_store_of_lt (h : opd.toNat < s.params.memWords) :
    exec (.store opd) s = .next (s.setMem (s.mem.write opd.toNat s.acc)) := if_pos h

/-- store outside memory. -/
theorem exec_store_of_le (h : s.params.memWords ≤ opd.toNat) : exec (.store opd) s = .next (s.dataFault opd) :=
  if_neg (Nat.not_lt.mpr h)

end

/-- Settles O11: none of the three reads memory, and each writes one register. -/
theorem immediateLoadsAndTransferWriteOneRegister : Obligations.ImmediateLoadsAndTransferWriteOneRegister := by
  unfold Obligations.ImmediateLoadsAndTransferWriteOneRegister
  exact fun _ _ => ⟨rfl, rfl, rfl⟩

/-- Settles O12, by the direct form. -/
theorem loadDirectLoadsTheAddressedWord : Obligations.LoadDirectLoadsTheAddressedWord := by
  unfold Obligations.LoadDirectLoadsTheAddressedWord
  exact fun _ s => ⟨withValue_direct_of_lt s.setAcc, withValue_direct_of_le s.setAcc⟩

/-- Settles O13, by the indirect form. -/
theorem loadIndirectFollowsThePointer : Obligations.LoadIndirectFollowsThePointer := by
  unfold Obligations.LoadIndirectFollowsThePointer
  exact fun _ s => ⟨withValue_indirect_of_lt s.setAcc, withValue_indirect_of_pointer_le s.setAcc,
    withValue_indirect_of_le s.setAcc⟩

/-- Settles O14: load-indexed is load-direct of the wrapped sum. -/
theorem loadIndexedAddsTheIndexModulo : Obligations.LoadIndexedAddsTheIndexModulo := by
  unfold Obligations.LoadIndexedAddsTheIndexModulo
  intro opd s
  rw [← indexedAddress_toNat, ← indexedAddress_eq_ofNat]
  exact ⟨withValue_direct_of_lt s.setAcc, withValue_direct_of_le s.setAcc⟩

/-- Settles O15, by what a write leaves to be read. -/
theorem storeWritesExactlyTheAddressedWord : Obligations.StoreWritesExactlyTheAddressedWord := by
  unfold Obligations.StoreWritesExactlyTheAddressedWord
  intro opd s
  refine ⟨fun h => ⟨_, exec_store_of_lt h, rfl, fun b hb => ?_, fun hm => ⟨?_, ?_⟩⟩, exec_store_of_le⟩
  · exact Memory.read_write_other _ _ hb
  · exact Memory.read_write_same _ _ hm
  · exact Memory.write_wf _ h hm

/-- Settles O16: each load form reads the word at `a`, which is what the store wrote. -/
theorem storedWordIsSeenByEveryLoadForm : Obligations.StoredWordIsSeenByEveryLoadForm := by
  unfold Obligations.StoredWordIsSeenByEveryLoadForm
  intro s t u a hm ha hstore hsize hread
  obtain rfl := Host.Outcome.next.inj ((exec_store_of_lt ha).symm.trans hstore)
  have hword : u.mem.read a.toNat = s.acc := hread.trans (Memory.read_write_same _ _ hm)
  have hload : withValue (direct u a) u u.setAcc = .next { u with acc := s.acc } :=
    hword ▸ withValue_direct_of_lt u.setAcc (hsize ▸ ha)
  have hpointer : ∀ q : Word, q.toNat < s.params.memWords → u.mem.read q.toNat = a → indirect u q = direct u a :=
    fun q hq hqa => hqa ▸ indirect_of_lt (hsize ▸ hq)
  refine ⟨hload, fun q hq hqa => ?_, fun b hb => ?_⟩
  · exact (congrArg (withValue · u u.setAcc) (hpointer q hq hqa)).trans hload
  · subst hb
    exact hload

end Sys2Proof.Machine

/-! PROOFS. The cycle (R68 to R78, R101, R116): the step that fetches an instruction, which steps are taken, and where
they leave `PC`; from these O2, O4 to O6, O17, O24 and O39. -/

namespace Sys2Proof.Machine

section
variable {s t : State}

theorem step_of_stopped {f : Fault} (h : s.stopped = some f) : step s = .fault f := by
  rw [step, h]

theorem runSteps_of_stopped {f : Fault} (k : Nat) (h : s.stopped = some f) : runSteps (k + 1) s = .fault f := by
  rw [runSteps, step_of_stopped h]

/-- The step that fetches an instruction executes it from the advanced `PC` (R69, R75). -/
theorem step_of_fetchesInstr {n : OpName} {opd : Word} (hok : s.params.ok = true) (h : FetchesInstr s n opd) :
    step s = exec (Instr.ofName n opd) s.advance := by
  obtain ⟨-, -, hinj⟩ := params_ok hok
  exact step_of_decode_instr h (decodeWith_of_unique opd fun _ hm => hinj hm)

/-! ### Progress (R116, R150) -/

/-- Every instruction answers a next state, but for a char-in that waits for input. -/
theorem exec_answers (i : Instr) (s : State) :
    (∃ t, exec i s = .next t) ∨
    (i.name = .charIn ∧ s.input = [] ∧ s.params.eofPolicy = .hold ∧ exec i s = .fault .waitingForInput) := by
  cases i
  case loadDirect | loadIndirect | loadIndexed | addMem | subMem | compareMem | compareIndirect | andMem | xorMem
      | orMem =>
    exact .inl (withValue_answers ..)
  case store opd =>
    rcases Nat.lt_or_ge opd.toNat s.params.memWords with h | h
    · exact .inl ⟨_, exec_store_of_lt h⟩
    · exact .inl ⟨_, exec_store_of_le h⟩
  case charIn opd =>
    rcases s.readChar_cases with ⟨c, rest, -, hr⟩ | ⟨-, -, hr⟩ | ⟨hin, hhold, hr⟩
    · exact .inl ⟨_, by rw [exec, execCharIn, hr]⟩
    · exact .inl ⟨_, by rw [exec, execCharIn, hr]⟩
    · exact .inr ⟨rfl, hin, hhold, by rw [exec, execCharIn, hr]⟩
  all_goals exact .inl ⟨_, rfl⟩

/-! ### `PC` after an instruction (R73, R101) -/

/-- The jump of a name is taken at a value of `FLAG` (R101). -/
def TakenJump (n : OpName) (f : Flag) : Prop :=
  n = .jump ∨ (n = .jumpIfEqual ∧ f = 1) ∨ (n = .jumpIfNotEqual ∧ f = 0)

/-- A branch moves `PC` exactly when its condition holds. -/
theorem branch_pc {taken : Flag → Bool} {opd : Word} (h : branch taken opd s = .next t) :
    (taken s.flag = true → t.pc = opd) ∧ (¬ taken s.flag = true → t.pc = s.pc) := by
  rcases branch_next h with ⟨htaken, rfl⟩ | ⟨hnot, rfl⟩
  · exact ⟨fun _ => rfl, fun hnot => absurd htaken hnot⟩
  · exact ⟨fun htaken => absurd (htaken.symm.trans hnot) (by decide), fun _ => rfl⟩

theorem exec_pc_of_not_jump {i : Instr} (h : exec i s = .next t)
    (hi : i.name ∉ [.jump, .jumpIfEqual, .jumpIfNotEqual]) : t.pc = s.pc := by
  cases exec_next h
  case jump _ hjump => exact absurd hjump hi
  all_goals subst t; rfl

/-- An instruction moves `PC` to its operand word where it is a jump that is taken, and leaves it otherwise. -/
theorem exec_pc {i : Instr} (h : exec i s = .next t) :
    (TakenJump i.name s.flag → t.pc = i.operand) ∧ (¬ TakenJump i.name s.flag → t.pc = s.pc) := by
  cases i
  case jump => simpa [TakenJump, Instr.name, Instr.operand, takenAlways] using branch_pc h
  case jumpIfEqual => simpa [TakenJump, Instr.name, Instr.operand, takenIfEqual] using branch_pc h
  case jumpIfNotEqual => simpa [TakenJump, Instr.name, Instr.operand, takenIfNotEqual] using branch_pc h
  all_goals
    exact ⟨fun htaken => by simp [TakenJump, Instr.name] at htaken,
      fun _ => exec_pc_of_not_jump h (by simp [Instr.name])⟩

end

/-- Settles O2: the opcode word decodes to none of the names. -/
theorem unknownOpcodeIsReportedAndSkipped : Obligations.UnknownOpcodeIsReportedAndSkipped := by
  unfold Obligations.UnknownOpcodeIsReportedAndSkipped
  exact fun _ _ _ hfetch h => step_of_unknown hfetch h

/-- Settles O4: such a `PC` passes the first range check and fails the second. -/
theorem operandFetchOutOfRangeEndsTheRun : Obligations.OperandFetchOutOfRangeEndsTheRun := by
  unfold Obligations.OperandFetchOutOfRangeEndsTheRun
  exact fun _ hrun hpc => step_of_fetchCheck_some hrun (State.fetchCheck_operand hpc)

/-- Settles O5: the first step of the run is stopped by the status. -/
theorem onlyARunningCoreTakesAStep : Obligations.OnlyARunningCoreTakesAStep := by
  unfold Obligations.OnlyARunningCoreTakesAStep
  refine fun s k => ⟨fun h => ?_, fun r h => ?_, fun h => ?_⟩ <;>
    exact runSteps_of_stopped k (by rw [State.stopped, h])

/-- Settles O6: range faults and skipped opcodes are next states, and so is every instruction's answer but the wait. -/
theorem runningCoreStepsUnlessItWaitsForInput : Obligations.RunningCoreStepsUnlessItWaitsForInput := by
  unfold Obligations.RunningCoreStepsUnlessItWaitsForInput
  intro s hrun
  cases hcheck : s.fetchCheck with
  | some r => exact .inl ⟨_, step_of_fetchCheck_some hrun hcheck⟩
  | none =>
    have hpc := State.fetchCheck_none.mp hcheck
    have hfetch : Fetches s s.fetchOp s.fetchOperand := ⟨hrun, hpc, rfl, rfl⟩
    cases hdecode : s.decode s.fetchOp s.fetchOperand with
    | unknown op =>
      obtain ⟨-, hop⟩ := decodeWith_eq_unknown_iff.mp hdecode
      exact .inl ⟨_, step_of_unknown hfetch hop⟩
    | instr i =>
      have hstep := step_of_decode_instr hfetch hdecode
      rcases exec_answers i s.advance with ⟨t, ht⟩ | ⟨hi, hin, hhold, hwait⟩
      · exact .inl ⟨t, hstep.trans ht⟩
      · exact .inr ⟨aboutToExecute_of_decode hrun hpc hdecode (List.mem_singleton.mpr hi), hin, hhold,
          hstep.trans hwait⟩

/-- Settles O17: the step writes `PC` and memory only, and the next fetch reads the written memory at `PC + 2`. -/
theorem storeIsSeenByTheNextFetch : Obligations.StoreIsSeenByTheNextFetch := by
  unfold Obligations.StoreIsSeenByTheNextFetch
  intro s opd hok hm hfetch hopd
  have hread := fun b => Memory.read_write hm opd.toNat b s.acc
  refine ⟨_, (step_of_fetchesInstr hok hfetch).trans (exec_store_of_lt hopd), rfl, hread, fun hnext => ?_⟩
  obtain ⟨hrun, -, -, -⟩ := hfetch
  obtain ⟨-, hN, -⟩ := params_ok hok
  have hpc : (s.pc + 2).toNat = s.pc.toNat + 2 := by bv_omega
  have hword := fun b => (hread b).trans (if_congr eq_comm rfl rfl)
  exact ⟨hrun, hpc ▸ hnext, hpc ▸ hword _, hpc ▸ hword _⟩

/-- Settles O24: the jump does not check its target, and the range checks of the next step do. -/
theorem jumpTargetIsCheckedByTheNextFetch : Obligations.JumpTargetIsCheckedByTheNextFetch := by
  unfold Obligations.JumpTargetIsCheckedByTheNextFetch
  intro s opd hok hfetch
  have hstep : step s = .next (s.advance.setPc opd) := (step_of_fetchesInstr hok hfetch).trans (branch_of_taken opd rfl)
  obtain ⟨hrun, -, -, -⟩ := hfetch
  exact ⟨_, hstep, rfl, fun h => ⟨hrun, h, rfl, rfl⟩,
    fun h => step_of_fetchCheck_some hrun (State.fetchCheck_operand h),
    fun h => step_of_fetchCheck_some hrun (State.fetchCheck_pc h)⟩

/-- Settles O39: the opcode word names at most one instruction, and only a taken jump moves the advanced `PC`. -/
theorem pcAfterAStep : Obligations.PcAfterAStep := by
  unfold Obligations.PcAfterAStep
  intro s t op opd hok hfetch hstep
  obtain ⟨-, -, hinj⟩ := params_ok hok
  have ⟨_, hpc, _, _⟩ := hfetch
  refine ⟨hpc, ?_⟩
  have hadvance : t.pc = s.pc + 2 → t.pc = s.pc + 2 ∧ (s.params.memWords < 2 ^ 64 → t.pc.toNat = s.pc.toNat + 2) :=
    fun h => ⟨h, fun hN => h ▸ State.advance_toNat hN hpc⟩
  rcases decodeWith_cases s.params.opcode.of op with ⟨n, rfl, hdec⟩ | ⟨hnone, -⟩
  · obtain ⟨htaken, hnot⟩ := exec_pc ((step_of_decode_instr hfetch (hdec opd)).symm.trans hstep)
    rw [Instr.name_ofName, Instr.operand_ofName] at htaken
    rw [Instr.name_ofName] at hnot
    simp only [hinj.eq_iff]
    exact ⟨htaken, fun h => hadvance (hnot h)⟩
  · obtain rfl := Host.Outcome.next.inj ((step_of_unknown hfetch hnone).symm.trans hstep)
    refine ⟨?_, fun _ => hadvance rfl⟩
    rintro (h | ⟨h, -⟩ | ⟨h, -⟩) <;> exact absurd h.symm (hnone _)

end Sys2Proof.Machine

/-! PROOFS. Arithmetic, compare, bitwise and shift (R89 to R100, R108 to R115): each meaning over its operand form, with
its word operation read as one on numbers or on bits; from these O18 to O22 and O26 to O28. -/

namespace Sys2Proof.Machine

theorem equalFlag_eq (a b : Word) : equalFlag a b = if a.toNat = b.toNat then 1 else 0 := by
  simp only [equalFlag, BitVec.toNat_inj]

/-- Settles O18: the sum of two words is their mathematical sum modulo 2^64. -/
theorem addsWrapModulo : Obligations.AddsWrapModulo := by
  unfold Obligations.AddsWrapModulo
  intro opd s
  simp only [Word.ofNat_toNat_add]
  exact ⟨rfl, withValue_direct_of_lt _, withValue_direct_of_le _⟩

/-- Settles O19: the difference of two words is their mathematical difference modulo 2^64. -/
theorem subtractsWrapModulo : Obligations.SubtractsWrapModulo := by
  unfold Obligations.SubtractsWrapModulo
  intro opd s
  simp only [Word.ofInt_toNat_sub]
  exact ⟨rfl, withValue_direct_of_lt _, withValue_direct_of_le _⟩

/-- Settles O20, by what adding and subtracting 1 gives at the two ends. -/
theorem incrementsAndDecrementsWrap : Obligations.IncrementsAndDecrementsWrap := by
  unfold Obligations.IncrementsAndDecrementsWrap
  intro opd s
  rw [← Word.add_one_eq, ← Word.add_one_eq, ← Word.sub_one_eq, ← Word.sub_one_eq]
  exact ⟨rfl, rfl, rfl, rfl⟩

/-- Settles O21: equal words are words of equal value. -/
theorem compareDirectAndImmediateWriteEquality : Obligations.CompareDirectAndImmediateWriteEquality := by
  unfold Obligations.CompareDirectAndImmediateWriteEquality
  intro opd s
  simp only [← equalFlag_eq]
  exact ⟨rfl, withValue_direct_of_lt _, withValue_direct_of_le _⟩

/-- Settles O22, by the indirect form. -/
theorem compareIndirectWritesEquality : Obligations.CompareIndirectWritesEquality := by
  unfold Obligations.CompareIndirectWritesEquality
  intro opd s
  simp only [← equalFlag_eq]
  exact ⟨withValue_indirect_of_lt _, withValue_indirect_of_pointer_le _, withValue_indirect_of_le _⟩

/-- Settles O26: the value in `ACC` is the model's word operation, whose bits are the library's. -/
theorem bitwiseImmediateFormsActBitByBit : Obligations.BitwiseImmediateFormsActBitByBit := by
  unfold Obligations.BitwiseImmediateFormsActBitByBit
  exact fun _ _ => ⟨⟨_, rfl, fun _ => BitVec.getLsbD_and⟩, ⟨_, rfl, fun _ => BitVec.getLsbD_xor⟩,
    ⟨_, rfl, fun _ => BitVec.getLsbD_or⟩⟩

/-- Settles O27: likewise with the word the direct form reads. -/
theorem bitwiseMemoryFormsActBitByBit : Obligations.BitwiseMemoryFormsActBitByBit := by
  unfold Obligations.BitwiseMemoryFormsActBitByBit
  intro opd s
  refine ⟨fun h => ⟨⟨_, withValue_direct_of_lt _ h, fun _ => BitVec.getLsbD_and⟩,
      ⟨_, withValue_direct_of_lt _ h, fun _ => BitVec.getLsbD_xor⟩,
      ⟨_, withValue_direct_of_lt _ h, fun _ => BitVec.getLsbD_or⟩⟩,
    fun h => ⟨withValue_direct_of_le _ h, withValue_direct_of_le _ h, withValue_direct_of_le _ h⟩⟩

/-- Settles O28: below 64 the shifts are the product by and the quotient by a power of two; from 64 on the policy. -/
theorem shiftsMultiplyAndDivideByPowersOfTwo : Obligations.ShiftsMultiplyAndDivideByPowersOfTwo := by
  unfold Obligations.ShiftsMultiplyAndDivideByPowersOfTwo
  intro opd s
  refine ⟨fun h => ?_, fun h hzero => ?_, fun h hany => ?_⟩
  · rw [← Word.shiftLeft_eq_ofNat, ← Word.ushiftRight_eq_ofNat]
    exact ⟨congrArg _ (shiftAcc_small h), congrArg _ (shiftAcc_small h)⟩
  · exact ⟨congrArg _ (shiftAcc_zero h hzero), congrArg _ (shiftAcc_zero h hzero)⟩
  · exact ⟨congrArg _ (shiftAcc_anyValue h hany), congrArg _ (shiftAcc_anyValue h hany)⟩

end Sys2Proof.Machine

/-! PROOFS. I/O, control and debug (R116 to R122): the three answers of char-in; from these O29 to O32. -/

namespace Sys2Proof.Machine

section
variable {s : State}

theorem exec_charIn_of_cons {opd : Word} {c : Byte} {rest : List Byte} (h : s.input = c :: rest) :
    exec (.charIn opd) s = .next ((s.setInput rest).setAcc (c.setWidth 64)) := by
  rw [exec, execCharIn, State.readChar, h]

theorem exec_charIn_of_hold {opd : Word} (h : s.input = []) (hp : s.params.eofPolicy = .hold) :
    exec (.charIn opd) s = .fault .waitingForInput := by
  rw [exec, execCharIn, State.readChar, h, hp]

theorem exec_charIn_of_anyValue {opd : Word} (h : s.input = []) (hp : s.params.eofPolicy = .anyValue) :
    exec (.charIn opd) s = .next (s.countDraw.setAcc (Config.freeWord s.draws)) := by
  rw [exec, execCharIn, State.readChar, h, hp]

end

/-- Settles O29: each of the three answers of `ReadChar()`, and the step that fetches the char-in that waits. -/
theorem charInTakesOneByteOrNoStep : Obligations.CharInTakesOneByteOrNoStep := by
  unfold Obligations.CharInTakesOneByteOrNoStep
  intro opd s
  refine ⟨fun c rest h => ?_, fun h hhold => ⟨exec_charIn_of_hold h hhold, fun hok hfetch => ?_⟩,
    fun h hany => exec_charIn_of_anyValue h hany⟩
  · rw [BitVec.ofNat_toNat]
    exact exec_charIn_of_cons h
  · exact (step_of_fetchesInstr hok hfetch).trans (exec_charIn_of_hold h hhold)

/-- Settles O30: bits 7 to 0 of a word are its value modulo 256. -/
theorem charOutAppendsTheLowByte : Obligations.CharOutAppendsTheLowByte := by
  unfold Obligations.CharOutAppendsTheLowByte
  intro opd s
  have hlow : s.acc.setWidth 8 = BitVec.ofNat 8 (s.acc.toNat % 256) := BitVec.eq_of_toNat_eq (by simp)
  rw [← hlow]
  rfl

/-- Settles O31: halt writes the status only, and a `Halted` core is stopped. -/
theorem haltStopsTheRun : Obligations.HaltStopsTheRun := by
  unfold Obligations.HaltStopsTheRun
  exact fun _ _ => ⟨rfl, fun hok hfetch => ⟨step_of_fetchesInstr hok hfetch, rfl⟩⟩

/-- Settles O32: in the step the snapshot is taken after the advance. -/
theorem inspectHandsOverASnapshot : Obligations.InspectHandsOverASnapshot := by
  unfold Obligations.InspectHandsOverASnapshot
  exact fun _ _ => ⟨rfl, step_of_fetchesInstr⟩

end Sys2Proof.Machine

/-! PROOFS. The register access table (R19, R21, R31, R79): what an instruction writes, and that two states alike in
every piece an instruction reads give answers alike; from these O34, O35 and O36. -/

namespace Sys2Proof.Machine

section
variable {s t u : State}

/-! ### The pieces of state and who reads them (R21) -/

/-- The pieces of state that the register access table says who reads. -/
inductive Piece where
  | acc | ix | pc | flag | mem | labels | input

/-- The instructions that read a piece. char-in reads the head of `in`; store only writes memory; inspect reads all it
hands over. -/
def Piece.readers : Piece → List OpName
  | .acc => [.moveAccToIndex, .store, .addImm, .addMem, .subImm, .subMem, .incAcc, .decAcc, .compareMem, .compareImm,
      .compareIndirect, .andImm, .andMem, .xorImm, .xorMem, .orImm, .orMem, .shiftLeft, .shiftRight, .charOut, .inspect]
  | .ix => [.loadIndexed, .incIndex, .decIndex, .inspect]
  | .pc => [.inspect]
  | .flag => [.jumpIfEqual, .jumpIfNotEqual, .inspect]
  | .mem => [.loadDirect, .loadIndirect, .loadIndexed, .addMem, .subMem, .compareMem, .compareIndirect, .andMem,
      .xorMem, .orMem, .inspect]
  | .labels => [.inspect]
  | .input => [.charIn]

/-- Two states hold the same in a piece. -/
def Piece.Same : Piece → State → State → Prop
  | .acc, s, u => u.acc = s.acc
  | .ix, s, u => u.ix = s.ix
  | .pc, s, u => u.pc = s.pc
  | .flag, s, u => u.flag = s.flag
  | .mem, s, u => u.mem = s.mem
  | .labels, s, u => u.labels = s.labels
  | .input, s, u => u.input = s.input

/-- `u` with the piece as it is in `s`. -/
def Piece.copy : Piece → State → State → State
  | .acc, s, u => { u with acc := s.acc }
  | .ix, s, u => { u with ix := s.ix }
  | .pc, s, u => { u with pc := s.pc }
  | .flag, s, u => { u with flag := s.flag }
  | .mem, s, u => { u with mem := s.mem }
  | .labels, s, u => { u with labels := s.labels }
  | .input, s, u => { u with input := s.input }

/-- Two states that differ in one piece at most. -/
def SameBut (p : Piece) (s u : State) : Prop := s = p.copy s u

/-! ### The writes -/

/-- The writes the meanings and the cycle are made of (R8, R10). -/
inductive Write where
  | acc (v : Word)
  | ix (v : Word)
  | pc (v : Word)
  | flag (f : Flag)
  | word (a : Nat) (v : Word)
  | status (st : Status)
  | input (bs : List Byte)
  | out (b : Byte)
  | diag (a0 op : Word)
  | dbg (d : Snapshot)
  | draw

def Write.apply : Write → State → State
  | .acc v, s => s.setAcc v
  | .ix v, s => s.setIx v
  | .pc v, s => s.setPc v
  | .flag f, s => s.setFlag f
  | .word a v, s => s.setMem (s.mem.write a v)
  | .status st, s => s.setStatus st
  | .input bs, s => s.setInput bs
  | .out b, s => s.emitOut b
  | .diag a0 op, s => s.emitDiag a0 op
  | .dbg d, s => s.emitDbg d
  | .draw, s => s.countDraw

/-- A relation between states that the same write on both sides keeps. -/
def KeptByWrites (R : State → State → Prop) : Prop := ∀ (w : Write) (s u : State), R s u → R (w.apply s) (w.apply u)

/-- A write and the copying of a piece do not disturb each other. -/
theorem Piece.copy_apply (p : Piece) (w : Write) (s u : State) :
    p.copy (w.apply s) (w.apply u) = w.apply (p.copy s u) := by
  cases w <;> cases p <;> rfl

theorem sameBut_keptByWrites (p : Piece) : KeptByWrites (SameBut p) := by
  intro w s u h
  calc w.apply s = w.apply (p.copy s u) := congrArg w.apply h
    _ = p.copy (w.apply s) (w.apply u) := (p.copy_apply w s u).symm

/-- States that differ in the piece `p` at most hold the same in every other piece. -/
theorem SameBut.same {p q : Piece} (h : SameBut p s u) (hne : q ≠ p) : q.Same s u := by
  rw [h]
  cases p <;> cases q <;> simp_all [Piece.Same, Piece.copy]

theorem SameBut.params_draws {p : Piece} (h : SameBut p s u) : u.params = s.params ∧ u.draws = s.draws := by
  rw [h]
  cases p <;> exact ⟨rfl, rfl⟩

/-- The same kind of write of two equal values. -/
theorem KeptByWrites.congr {α : Type} {R : State → State → Prop} (hR : KeptByWrites R) (w : α → Write) {a b : α}
    (h : R s u) (hab : b = a) : R ((w a).apply s) ((w b).apply u) :=
  hab ▸ hR (w a) s u h

/-! ### Who reads what (R21, R79) -/

theorem State.memRead_congr (a : Word) (hparams : u.params = s.params) (hmem : u.mem = s.mem) :
    u.memRead a = s.memRead a := by
  unfold State.memRead inRange
  rw [hparams, hmem]

theorem indirect_congr (opd : Word) (hparams : u.params = s.params) (hmem : u.mem = s.mem) :
    indirect u opd = indirect s opd := by
  simp only [indirect, State.memRead_congr _ hparams hmem]

theorem indexed_congr (opd : Word) (hparams : u.params = s.params) (hmem : u.mem = s.mem) (hix : u.ix = s.ix) :
    indexed u opd = indexed s opd := by
  rw [indexed, indexedAddress, hix, State.memRead_congr _ hparams hmem]
  rfl

theorem State.snapshot_congr (hacc : u.acc = s.acc) (hix : u.ix = s.ix) (hpc : u.pc = s.pc) (hflag : u.flag = s.flag)
    (hmem : u.mem = s.mem) (hlabels : u.labels = s.labels) : u.snapshot = s.snapshot := by
  rw [State.snapshot, hacc, hix, hpc, hflag, hmem, hlabels]
  rfl

/-- `withValue_agree` for two reads known to be equal. -/
theorem withValue_agree_of_eq {R : State → State → Prop} {r r' : Except FaultReason Word} {k l : Word → State}
    (hr : r' = r) (hk : ∀ v, R (k v) (l v))
    (he : ∀ e, R (s.setStatus (.faulted e)) (u.setStatus (.faulted e))) :
    AgreeOn R (withValue r s k) (withValue r' u l) :=
  hr ▸ withValue_agree r hk he

theorem branch_agree {R : State → State → Prop} {taken : Flag → Bool} {opd : Word} (hflag : u.flag = s.flag)
    (htaken : R (s.setPc opd) (u.setPc opd)) (hnot : R s u) : AgreeOn R (branch taken opd s) (branch taken opd u) := by
  unfold branch
  rw [hflag]
  split
  · exact htaken
  · exact hnot

/-- Two states that a relation kept by writes relates, and that hold the same in every piece an instruction reads,
answer alike up to the relation. -/
theorem exec_agree {R : State → State → Prop} (hR : KeptByWrites R) (n : OpName) (opd : Word) (h : R s u)
    (hparams : u.params = s.params) (hdraws : u.draws = s.draws)
    (hreads : ∀ p : Piece, n ∈ p.readers → p.Same s u) :
    AgreeOn R (exec (Instr.ofName n opd) s) (exec (Instr.ofName n opd) u) := by
  have hacc : n ∈ Piece.acc.readers → u.acc = s.acc := hreads .acc
  have hix : n ∈ Piece.ix.readers → u.ix = s.ix := hreads .ix
  have hmem : n ∈ Piece.mem.readers → u.mem = s.mem := hreads .mem
  have hfault := fun e => hR (.status (.faulted e)) s u h
  cases n
  case loadImmediate => exact hR (.acc opd) s u h
  case loadIndexImmediate => exact hR (.ix opd) s u h
  case jump => exact hR (.pc opd) s u h
  case halt => exact hR (.status .halted) s u h
  case addImm | subImm | incAcc | decAcc | andImm | xorImm | orImm =>
    exact hR.congr .acc h (by rw [hacc (by decide)])
  case moveAccToIndex => exact hR.congr .ix h (hacc (by decide))
  case incIndex | decIndex => exact hR.congr .ix h (by rw [hix (by decide)])
  case compareImm => exact hR.congr .flag h (by rw [hacc (by decide)])
  case charOut => exact hR.congr .out h (by rw [hacc (by decide)])
  case inspect =>
    exact hR.congr .dbg h (State.snapshot_congr (hacc (by decide)) (hix (by decide)) (hreads .pc (by decide))
      (hreads .flag (by decide)) (hmem (by decide)) (hreads .labels (by decide)))
  case loadDirect =>
    exact withValue_agree_of_eq (State.memRead_congr _ hparams (hmem (by decide))) (fun v => hR (.acc v) s u h) hfault
  case loadIndirect =>
    exact withValue_agree_of_eq (indirect_congr _ hparams (hmem (by decide))) (fun v => hR (.acc v) s u h) hfault
  case loadIndexed =>
    exact withValue_agree_of_eq (indexed_congr _ hparams (hmem (by decide)) (hix (by decide)))
      (fun v => hR (.acc v) s u h) hfault
  case addMem | subMem | andMem | xorMem | orMem =>
    exact withValue_agree_of_eq (State.memRead_congr _ hparams (hmem (by decide)))
      (fun v => hR.congr .acc h (by rw [hacc (by decide)])) hfault
  case compareMem =>
    exact withValue_agree_of_eq (State.memRead_congr _ hparams (hmem (by decide)))
      (fun v => hR.congr .flag h (by rw [hacc (by decide)])) hfault
  case compareIndirect =>
    exact withValue_agree_of_eq (indirect_congr _ hparams (hmem (by decide)))
      (fun v => hR.congr .flag h (by rw [hacc (by decide)])) hfault
  case store => exact memWrite_agree hparams (hR.congr (.word _) h (hacc (by decide))) hfault
  case jumpIfEqual | jumpIfNotEqual => exact branch_agree (hreads .flag (by decide)) (hR (.pc opd) s u h) h
  case shiftLeft | shiftRight =>
    exact shiftAcc_related (R := R) _ _ hparams (hacc (by decide)) hdraws (fun v => hR (.acc v) s u h)
      (fun v => hR .draw _ _ (hR (.acc v) s u h))
  case charIn =>
    exact execCharIn_agree opd hparams (hreads .input (by decide)) hdraws
      (fun rest v => hR (.acc v) _ _ (hR (.input rest) s u h)) (fun v => hR (.acc v) _ _ (hR .draw s u h))

/-- Another value of a piece an instruction does not read changes nothing in its answer but that piece. -/
theorem exec_agree_of_not_reader {p : Piece} {i : Instr} (h : SameBut p s u) (hi : i.name ∉ p.readers) :
    AgreeOn (SameBut p) (exec i s) (exec i u) := by
  obtain ⟨hparams, hdraws⟩ := h.params_draws
  have hreads : ∀ q : Piece, i.name ∈ q.readers → q.Same s u := fun q hq => h.same fun heq => hi (heq ▸ hq)
  simpa using exec_agree (sameBut_keptByWrites p) i.name i.operand h hparams hdraws hreads

/-! ### Who writes what (R21, R31, R47) -/

/-- The instructions that write `ACC`. -/
def accWriters : List OpName :=
  [.loadImmediate, .loadDirect, .loadIndirect, .loadIndexed, .addImm, .subImm, .addMem, .subMem, .incAcc, .decAcc,
   .andImm, .xorImm, .orImm, .andMem, .xorMem, .orMem, .shiftLeft, .shiftRight, .charIn]

/-- From `s` to `t` only pieces changed that the table lets the instruction write: a proof names the pieces its effect
writes, and every other field closes because the piece is as before. -/
structure WritesOnly (i : Instr) (s t : State) : Prop where
  acc : t.acc ≠ s.acc → i.name ∈ accWriters := by simp
  ix : t.ix ≠ s.ix → i.name ∈ [.loadIndexImmediate, .moveAccToIndex, .incIndex, .decIndex] := by simp
  pc : t.pc ≠ s.pc → i.name ∈ [.jump, .jumpIfEqual, .jumpIfNotEqual] ∧ t.pc = i.operand := by simp
  flag : t.flag ≠ s.flag → i.name ∈ compares := by simp
  mem : ∀ a, t.mem.read a ≠ s.mem.read a → ∃ opd, i = .store opd ∧ a = (directAddress opd).toNat := by simp
  labels : t.labels = s.labels := by simp
  input : t.input ≠ s.input → i.name = .charIn := by simp
  output : t.output ≠ s.output → i.name = .charOut := by simp
  diag : t.diag = s.diag := by simp
  dbg : t.dbg ≠ s.dbg → i.name = .inspect := by simp
  status : t.status ≠ s.status → i.name = .halt ∨
    ∃ a : Word, s.params.memWords ≤ a.toNat ∧ t.status = .faulted (.dataAddressOutOfRange a) := by simp
  params : t.params = s.params := by simp
  draws : t.draws ≠ s.draws → i.name ∈ drawers := by simp

theorem exec_writesOnly {i : Instr} (h : exec i s = .next t) : WritesOnly i s t := by
  cases exec_next h with
  | acc v ht hi => exact ht ▸ { acc := fun _ => List.subset_def.mp (by decide) hi }
  | drawn v ht hi => exact ht ▸ { acc := fun _ => List.subset_def.mp (by decide) hi, draws := fun _ => hi }
  | ix v ht hi => exact ht ▸ { ix := fun _ => hi }
  | flag f ht hi => exact ht ▸ { flag := fun _ => hi }
  | jump ht hi => exact ht ▸ { pc := fun _ => ⟨hi, rfl⟩ }
  | fallThrough ht hi => exact ht ▸ {}
  | store opd hi ha ht =>
    exact ht ▸ { mem := fun a hne => ⟨opd, hi, by_contra fun ha => hne (Memory.read_write_other _ _ ha)⟩ }
  | charIn c rest hc ht hi => exact ht ▸ { acc := fun _ => hi ▸ by decide, input := fun _ => hi }
  | charOut ht hi => exact ht ▸ { output := fun _ => hi }
  | halt ht hi => exact ht ▸ { status := fun _ => .inl hi }
  | inspect ht hi => exact ht ▸ { dbg := fun _ => hi }
  | fault a ha ht hi => exact ht ▸ { status := fun _ => .inr ⟨a, ha, rfl⟩ }

/-! ### The output streams as history (R19) -/

/-- `s` with more history before its output streams. -/
def State.withHistory (o : List Byte) (d : List Report) (g : List Snapshot) (s : State) : State :=
  { s with output := o ++ s.output, diag := d ++ s.diag, dbg := g ++ s.dbg }

/-- Writes append to the streams, so the history stays before them. -/
theorem withHistory_keptByWrites (o : List Byte) (d : List Report) (g : List Snapshot) :
    KeptByWrites fun s u => u = s.withHistory o d g := by
  rintro w s _ rfl
  cases w
  case out b => simp [Write.apply, State.withHistory, State.emitOut]
  case diag a0 op => simp [Write.apply, State.withHistory, State.emitDiag]
  case dbg p => simp [Write.apply, State.withHistory, State.emitDbg]
  all_goals rfl

/-- Answers that agree along a function are each other's images. -/
theorem eq_mapNext_of_agree {f : State → State} {r r' : StepResult} (h : AgreeOn (fun t u => u = f t) r r') :
    r' = mapNext f r :=
  match r, r', h with
  | .next _, .next _, h => congrArg _ h
  | .fault _, .fault _, h => congrArg _ h.symm
  | .refused _, .refused _, h => congrArg _ h.symm

/-- A step of a state with more history is the step without, with the same history before its streams. -/
theorem step_withHistory (s : State) (o : List Byte) (d : List Report) (g : List Snapshot) :
    AgreeOn (fun t u => u = t.withHistory o d g) (step s) (step (s.withHistory o d g)) := by
  have hR := withHistory_keptByWrites o d g
  cases hstop : s.stopped with
  | some f =>
    rw [step_of_stopped hstop, step_of_stopped (s := s.withHistory o d g) hstop]
    exact rfl
  | none =>
    have hrun := State.stopped_none.mp hstop
    cases hcheck : s.fetchCheck with
    | some r =>
      rw [step_of_fetchCheck_some hrun hcheck, step_of_fetchCheck_some (s := s.withHistory o d g) hrun hcheck]
      exact rfl
    | none =>
      have hfetch : Fetches s s.fetchOp s.fetchOperand := ⟨hrun, State.fetchCheck_none.mp hcheck, rfl, rfl⟩
      rcases decodeWith_cases s.params.opcode.of s.fetchOp with ⟨n, -, hdec⟩ | ⟨hnone, -⟩
      · rw [step_of_decode_instr hfetch (hdec _), step_of_decode_instr (s := s.withHistory o d g) hfetch (hdec _)]
        exact exec_agree hR n s.fetchOperand rfl rfl rfl fun p _ => by cases p <;> rfl
      · rw [step_of_unknown hfetch hnone, step_of_unknown (s := s.withHistory o d g) hfetch hnone]
        exact hR (.diag s.pc s.fetchOp) s.advance _ rfl

end

/-- Settles O34: the step of a state with more history agrees with the step without. -/
theorem outputStreamsAreNeverRead : Obligations.OutputStreamsAreNeverRead := by
  unfold Obligations.OutputStreamsAreNeverRead
  exact fun s o d g => eq_mapNext_of_agree (step_withHistory s o d g)

/-- Settles O36: each clause is `exec_agree_of_not_reader` for its piece, whose readers are the rest of the table. -/
theorem stateNotReadDoesNotMatter : Obligations.StateNotReadDoesNotMatter := by
  unfold Obligations.StateNotReadDoesNotMatter
  intro i s
  have hacc : ∀ n ∈ [OpName.loadImmediate, .loadDirect, .loadIndirect, .loadIndexed, .loadIndexImmediate, .incIndex,
      .decIndex, .jump, .jumpIfEqual, .jumpIfNotEqual, .charIn, .halt], n ∉ Piece.acc.readers := by decide
  refine ⟨fun hi v => ?_, fun hi v => ?_, fun hi v => ?_, fun hi f => ?_, fun hi m => ?_, fun hi l => ?_,
    fun hi b => ?_⟩
  · exact exec_agree_of_not_reader (p := .acc) rfl (hacc _ hi)
  · exact exec_agree_of_not_reader (p := .ix) rfl hi
  · exact exec_agree_of_not_reader (p := .pc) rfl (mt List.mem_singleton.mp hi)
  · exact exec_agree_of_not_reader (p := .flag) rfl hi
  · exact exec_agree_of_not_reader (p := .mem) rfl hi
  · exact exec_agree_of_not_reader (p := .labels) rfl (mt List.mem_singleton.mp hi)
  · exact exec_agree_of_not_reader (p := .input) rfl (mt List.mem_singleton.mp hi)

/-- Settles O35, with the compares in the table's order. -/
theorem instructionsWriteOnlyWhatTheTableSays : Obligations.InstructionsWriteOnlyWhatTheTableSays := by
  unfold Obligations.InstructionsWriteOnlyWhatTheTableSays
  intro i s t h
  have hw := exec_writesOnly h
  exact ⟨hw.acc, hw.ix, hw.pc, fun hne => List.subset_def.mp (by decide) (hw.flag hne), hw.mem, hw.labels, hw.input,
    hw.output, hw.diag, hw.dbg, hw.status, hw.params, hw.draws⟩

end Sys2Proof.Machine
